-- ==== Sys2Proof/Word.lean ====
section
/-! DEFINITION. The words of the flag-derivation ALU (FDALU) and the Flags value: the types of its ports and of the
nine-member flag set (spec/00_scope.md R13, R15; spec/10_state.md R21, R25). -/

namespace Sys2Proof

/-- A 16-bit port value: `a`, `b`, `flags_in`, `result`, `flags_out` (R21, R22). -/
abbrev Word := BitVec 16

/-- An 8-bit operand value (R11). -/
abbrev Byte := BitVec 8

/-- The 5-bit select word on port `op` (R61). -/
abbrev Select := BitVec 5

/-- The nine named flags, in the order of R25. The source's long names are CARRY, PARITY, AUXILIARY_CARRY, ZERO, SIGN,
OVERFLOW, TRAP, INTERRUPT and DIRECTION (R15). -/
inductive Flag where
  | CF
  | PF
  | AF
  | ZF
  | SF
  | OF
  | TF
  | IF
  | DF
  deriving DecidableEq, Repr

/-- A Flags value: a set over the nine named flags, one membership bit each, and nothing else (R25, R30).
`{}` is the empty set and `{ CF := true, ZF := true }` is the set written CF, ZF in the spec. -/
structure Flags where
  CF : Bool := false
  PF : Bool := false
  AF : Bool := false
  ZF : Bool := false
  SF : Bool := false
  OF : Bool := false
  TF : Bool := false
  IF : Bool := false
  DF : Bool := false
  deriving DecidableEq, Repr

end Sys2Proof
end

