-- ==== Sys2Proof/Syntax.lean ====
section
/-! DEFINITION. The twenty entry points of FDALU (spec/00_scope.md R3), one constructor per row of
spec/opcode_table.json, and the call syntax of spec/30_encoding.md R70. -/

namespace Sys2Proof

/-- The instructions. An instruction has no field: no select word carries a register, an immediate or a mode (R60,
R67), so the constructor is all of it. AAA, AAS, DAA and DAS have one constructor each, because their width bit is
ignored (R62). -/
inductive Instr where
  | add8
  | add16
  | adc8
  | adc16
  | sub8
  | sub16
  | sbb8
  | sbb16
  | inc8
  | inc16
  | dec8
  | dec16
  | neg8
  | neg16
  | cmp8
  | cmp16
  | aaa
  | aas
  | daa
  | das
  deriving DecidableEq, Repr

/-- A call in the block's assembly syntax (R70): a mnemonic with the numerals given for `a` and `b` and the Flags
literal given for, or shown beside, the call. Whether the numerals fit and the form is one of R70's is checked in
WellFormed.lean. -/
structure Call where
  instr : Instr
  a : Nat
  b : Option Nat := none
  flags : Flags := {}
  deriving DecidableEq, Repr

end Sys2Proof
end

