-- ==== Sys2Proof/Decode.lean ====
section
/-! DEFINITION. Decoding of the select word and, after it, its encoder (spec/30_encoding.md R60-R69 and
spec/opcode_table.json). -/

namespace Sys2Proof

/-- What a select word stands for (R67): an entry point, or a reserved word, rejected under its own name. -/
inductive Decoded where
  | instr (i : Instr)
  | reserved (op : Select)
  deriving DecidableEq, Repr

/-- The width bit `w` = `op[4]` (R61). -/
def selectWidth (op : Select) : Bool := op.getLsbD 4

/-- The function code `f` = `op[3:0]` (R61). -/
def selectFunction (op : Select) : BitVec 4 := op.extractLsb' 0 4

/-- `n = (w == 1 ? 16 : 8)` (R69): the 8-bit or the 16-bit entry point of a function code. -/
def byWidth (w : Bool) (i8 i16 : Instr) : Decoded := .instr (if w then i16 else i8)

/-- Decoding, total over all 32 select words, as the pseudocode of R69 has it. -/
def decode (op : Select) : Decoded :=
  match (selectFunction op).toNat with
  | 0 => byWidth (selectWidth op) .add8 .add16
  | 1 => byWidth (selectWidth op) .adc8 .adc16
  | 2 => byWidth (selectWidth op) .sub8 .sub16
  | 3 => byWidth (selectWidth op) .sbb8 .sbb16
  | 4 => byWidth (selectWidth op) .inc8 .inc16
  | 5 => byWidth (selectWidth op) .dec8 .dec16
  | 6 => byWidth (selectWidth op) .neg8 .neg16
  | 7 => byWidth (selectWidth op) .cmp8 .cmp16
  | 8 => .instr .aaa
  | 9 => .instr .aas
  | 10 => .instr .daa
  | 11 => .instr .das
  | _ => .reserved op

/-- The entry point a decoding gives, if it gives one. -/
def Decoded.toInstr? : Decoded → Option Instr
  | .instr i => some i
  | .reserved _ => none

/-- The select word of the first `nbits` bits of `w`. A select word has 5 bits and nothing beside it (R68): a value with
a bit above bit 4 is no select word (DESIGN CHOICE: notes/assumptions/9.md). -/
def selectOfBits (nbits w : Nat) : Option Select :=
  if w % 2 ^ nbits < 32 then some (BitVec.ofNat 5 (w % 2 ^ nbits)) else none

/-- The instruction the decoder reads from the table's bits `w`. -/
def decodeTableWord (nbits w : Nat) : Option Instr :=
  (selectOfBits nbits w).bind fun op => (decode op).toInstr?

/-- The select word of an instruction (R63); for the BCD-adjust operations the canonical spelling (R62). -/
def encode : Instr → Select
  | .add8 => 0x00#5
  | .adc8 => 0x01#5
  | .sub8 => 0x02#5
  | .sbb8 => 0x03#5
  | .inc8 => 0x04#5
  | .dec8 => 0x05#5
  | .neg8 => 0x06#5
  | .cmp8 => 0x07#5
  | .add16 => 0x10#5
  | .adc16 => 0x11#5
  | .sub16 => 0x12#5
  | .sbb16 => 0x13#5
  | .inc16 => 0x14#5
  | .dec16 => 0x15#5
  | .neg16 => 0x16#5
  | .cmp16 => 0x17#5
  | .aaa => 0x18#5
  | .aas => 0x19#5
  | .daa => 0x0A#5
  | .das => 0x0B#5

/-- The second spelling of an instruction: the alias of R63 for the BCD-adjust operations, and the same select word
for every other instruction, which has only one. -/
def encodeAlias (i : Instr) : Select :=
  match i with
  | .aaa => 0x08#5
  | .aas => 0x09#5
  | .daa => 0x1A#5
  | .das => 0x1B#5
  | .add8 | .add16 | .adc8 | .adc16 | .sub8 | .sub16 | .sbb8 | .sbb16
  | .inc8 | .inc16 | .dec8 | .dec16 | .neg8 | .neg16 | .cmp8 | .cmp16 => encode i

/-- The `match` and `mask` columns of an instruction's row in spec/opcode_table.json. -/
def opcodeRow : Instr → Select × Select
  | .add8 => (0x00#5, 0x1F#5)
  | .add16 => (0x10#5, 0x1F#5)
  | .adc8 => (0x01#5, 0x1F#5)
  | .adc16 => (0x11#5, 0x1F#5)
  | .sub8 => (0x02#5, 0x1F#5)
  | .sub16 => (0x12#5, 0x1F#5)
  | .sbb8 => (0x03#5, 0x1F#5)
  | .sbb16 => (0x13#5, 0x1F#5)
  | .inc8 => (0x04#5, 0x1F#5)
  | .inc16 => (0x14#5, 0x1F#5)
  | .dec8 => (0x05#5, 0x1F#5)
  | .dec16 => (0x15#5, 0x1F#5)
  | .neg8 => (0x06#5, 0x1F#5)
  | .neg16 => (0x16#5, 0x1F#5)
  | .cmp8 => (0x07#5, 0x1F#5)
  | .cmp16 => (0x17#5, 0x1F#5)
  | .aaa => (0x08#5, 0x0F#5)
  | .aas => (0x09#5, 0x0F#5)
  | .daa => (0x0A#5, 0x0F#5)
  | .das => (0x0B#5, 0x0F#5)

end Sys2Proof
end

