-- ==== Sys2Proof/Config.lean ====
section
/-! DEFINITION. What the spec leaves to the implementation: the open parameters of spec/00_scope.md R12 and
spec/10_state.md R40, as constants with no body, so that a claim holds for every value of them. The operations of
Machine/ take each parameter as an argument, as R12, R100, R120 and R123 ask; only the meanings apply these constants. -/

namespace Sys2Proof

/-- The values of `P_CARRY_IN_FOLD` (R100): where ADC and SBB absorb the carry-in before the flags are derived. -/
inductive CarryInFold where
  /-- `INTO_RESULT`: op2 is `b`, and the carry-in is added to (taken from) the result alone. -/
  | intoResult
  /-- `INTO_OP2`: op2 is `b +_n c`. -/
  | intoOp2
  deriving DecidableEq, Repr, Inhabited

/-- The values of `P_AAX_ADJUST` (R120): whether the ±6 of AAA and AAS carries into the high byte. -/
inductive AaxAdjust where
  /-- `SPLIT`: each byte is adjusted on its own. -/
  | split
  /-- `WORD`: one 16-bit add or subtract of 0x0106. -/
  | word
  deriving DecidableEq, Repr, Inhabited

namespace Config

/-- `P_CARRY_IN_FOLD` (R12, R100), open. UNVERIFIED which value the block has: notes/assumptions/4.md. -/
opaque carryInFold : CarryInFold

/-- `P_AAX_ADJUST` (R12, R120), open. UNVERIFIED which value the block has: notes/assumptions/5.md. -/
opaque aaxAdjust : AaxAdjust

/-- `P_DAA_OF` (R12, R123), open: a total function of the 8-bit accumulator and the input Flags, of which nothing else
is assumed. DAA gives it the six input status flags: TF, IF and DF have no effect on a status bit
(spec/90_conflicts.md C6, spec/60_exceptions.md R148). UNVERIFIED which function the block has:
notes/assumptions/6.md. -/
opaque daaOf : Byte → Flags → Bool

/-- `P_INTEGRATOR_FLAGS_RESET` (R40), open: the reset value of the integrator's Flags register, which drives
`flags_in`. UNVERIFIED which value it has: notes/assumptions/2.md. -/
opaque integratorFlagsReset : Word

end Config

/-- The reference configuration's `P_CARRY_IN_FOLD` (R12); used by the test vectors only. -/
def CarryInFold.reference : CarryInFold := .intoResult

/-- The reference configuration's `P_AAX_ADJUST` (R12); used by the test vectors only. -/
def AaxAdjust.reference : AaxAdjust := .split

/-- The reference configuration's `P_DAA_OF`, the constant 0 (R12, R123); used by the test vectors only. -/
def daaOfReference (_ : Byte) (_ : Flags) : Bool := false

end Sys2Proof
end

