-- ==== Sys2Proof/Machine/State.lean ====
section
/-! DEFINITION. The state of FDALU, its reset, and the reasons a step can stop. FDALU holds no architectural state
(spec/10_state.md R20): what there is to hold is the values on its ports (R21, R22). -/

namespace Sys2Proof.Machine

/-- FDALU raises no fault: "No input combination makes an operation fail, trap or stop" (spec/60_exceptions.md R140).
No constructor, so no meaning can answer with one. -/
inductive Fault : Type
  deriving DecidableEq, Repr

/-- The reasons the model itself can refuse. -/
inductive Refusal where
  /-- Raised by `exec` for an instruction that has no meaning in this model; no arm raises it. Safe. -/
  | notModelled (mnemonic : String)
  deriving DecidableEq, Repr

/-- The four output ports (R22), as one evaluation drives them together (R164). -/
structure Outputs where
  /-- `result[15:0]` -/
  result : Word
  /-- `res_we`: the operation returns a numeric result -/
  resWe : Bool
  /-- `flags_out[15:0]`, in the layout of R27 -/
  flagsOut : Word
  /-- `op_err`: the select word is reserved -/
  opErr : Bool
  deriving DecidableEq, Repr

/-- What an entry point returns (R22): the numeric value on the result bus, whether it is to be written back, and
`status_out`, the status part of `flags_out` (R32). -/
structure Answer where
  value : Word
  writes : Bool
  status : Flags
  deriving DecidableEq, Repr

/-- The port values. The inputs are the integrator's to drive, and no evaluation changes them. -/
structure State where
  /-- `op[4:0]`, the select word (R21, R61) -/
  op : Select
  /-- `a[15:0]`, the first operand or the accumulator (R21) -/
  a : Word
  /-- `b[15:0]`, the second operand (R21) -/
  b : Word
  /-- `flags_in[15:0]`, the flags before this evaluation, in the layout of R27 (R21) -/
  flagsIn : Word
  /-- The outputs of the last evaluation, `none` before the first: "No output value exists, and none is observable,
  before the first evaluation" (spec/70_reset_and_hazards.md R161; DEDUCED: notes/assumptions/3.md). -/
  out : Option Outputs
  deriving DecidableEq, Repr

/-- The state before the first evaluation (R39, R160, R161). FDALU has no reset input, and no port has a reset value:
the inputs `op`, `a` and `b` are at zero by DESIGN CHOICE (notes/assumptions/1.md), and `flags_in` is at the open
parameter `P_INTEGRATOR_FLAGS_RESET` of the integrator's Flags register (R40; notes/assumptions/2.md). -/
def State.reset : State where
  op := 0#5
  a := 0#16
  b := 0#16
  flagsIn := Config.integratorFlagsReset
  out := none

end Sys2Proof.Machine
end

