-- ==== Sys2Proof/Machine/Operands.lean ====
section
/-! DEFINITION. Bit fields (spec/00_scope.md R14; spec/20_memory.md R51) and the assembly of operands from the ports
(spec/30_encoding.md R64). -/

namespace Sys2Proof.Machine

/-- `lo4(v)` = `v[3:0]`, the low nibble (R14). -/
def lo4 {n : Nat} (v : BitVec n) : BitVec 4 := v.setWidth 4

/-- `lo8(v)` = `v[7:0]`, the low byte (R14). -/
def lo8 (v : Word) : Byte := v.setWidth 8

/-- `hi8(v)` = `v[15:8]`, the high byte (R14). -/
def hi8 (v : Word) : Byte := v.extractLsb' 8 8

/-- `hi * 256 + lo` (R120): the word with these two bytes. -/
def joinBytes (hi lo : Byte) : Word := hi ++ lo

/-- `zext_16(v)` (R14). -/
def zext16 {n : Nat} (v : BitVec n) : Word := v.setWidth 16

/-- `popcount8(v)`, the number of 1 bits in `v[7:0]` (R14). -/
def popcount8 {n : Nat} (v : BitVec n) : Nat :=
  (v.getLsbD 0).toNat + (v.getLsbD 1).toNat + (v.getLsbD 2).toNat + (v.getLsbD 3).toNat +
  (v.getLsbD 4).toNat + (v.getLsbD 5).toNat + (v.getLsbD 6).toNat + (v.getLsbD 7).toNat

/-- A carry-in bit as an n-bit value (R64: every value is zero-extended). -/
def carryValue (n : Nat) (c : Bool) : BitVec n := if c then 1#n else 0#n

/-- `a[n-1:0]`: an 8-bit operation reads only the low byte (R37, R64). -/
def State.opA (s : State) (n : Nat) : BitVec n := s.a.setWidth n

/-- `b[n-1:0]` (R37, R64). -/
def State.opB (s : State) (n : Nat) : BitVec n := s.b.setWidth n

end Sys2Proof.Machine
end

