-- ==== Sys2Proof/Machine/Flags.lean ====
section
/-! DEFINITION. The Flags value as a set and as a word (spec/10_state.md R25-R32), and the width-generic derivation of the
six status flags, one function per rule (spec/40_flag_derivation.md R80-R91). -/

namespace Sys2Proof

/-- The bit of the flag word that holds a flag: the layout R27 fixes for the ports (the spec's decision D3). -/
def Flag.position : Flag → Nat
  | .CF => 0
  | .PF => 2
  | .AF => 4
  | .ZF => 6
  | .SF => 7
  | .TF => 8
  | .IF => 9
  | .DF => 10
  | .OF => 11

/-- A flag's mask constant (R27). -/
def Flag.mask (f : Flag) : Word := 1#16 <<< f.position

/-- `STATUS_MASK`: CF, PF, AF, ZF, SF and OF (R27). -/
def statusMask : Word := 0x08D5#16

/-- `CONTROL_MASK`: TF, IF and DF (R27). -/
def controlMask : Word := 0x0700#16

/-- `NAMED_MASK`: all nine (R27). -/
def namedMask : Word := 0x0FD5#16

/-- Membership of one flag (R29). -/
def Flags.mem (F : Flags) : Flag → Bool
  | .CF => F.CF
  | .PF => F.PF
  | .AF => F.AF
  | .ZF => F.ZF
  | .SF => F.SF
  | .OF => F.OF
  | .TF => F.TF
  | .IF => F.IF
  | .DF => F.DF

/-- The set given by an explicit mapping flag -> bool (R29). -/
def Flags.ofMap (m : Flag → Bool) : Flags where
  CF := m .CF
  PF := m .PF
  AF := m .AF
  ZF := m .ZF
  SF := m .SF
  OF := m .OF
  TF := m .TF
  IF := m .IF
  DF := m .DF

/-- The empty set (R29). -/
def Flags.empty : Flags := {}

/-- Union (R29). -/
def Flags.union (F G : Flags) : Flags := .ofMap fun f => F.mem f || G.mem f

/-- Intersection (R29). -/
def Flags.inter (F G : Flags) : Flags := .ofMap fun f => F.mem f && G.mem f

/-- Asymmetric difference, `F \ G` (R29). -/
def Flags.diff (F G : Flags) : Flags := .ofMap fun f => F.mem f && !G.mem f

/-- The status flags of a set: what is left without TF, IF and DF (R31). -/
def Flags.status (F : Flags) : Flags := { F with TF := false, IF := false, DF := false }

/-- `{ f | c }`: the set of one flag when the condition holds, else the empty set (R90). -/
def Flags.when (f : Flag) (c : Bool) : Flags := .ofMap fun g => c && decide (g = f)

/-- The Flags value of a flag word: the unnamed positions are ignored (R27, R28). -/
def Flags.ofWord (w : Word) : Flags := .ofMap fun f => w.getLsbD f.position

/-- The bit of one flag in the flag word. -/
def Flags.bit (F : Flags) (f : Flag) : Word := if F.mem f then f.mask else 0#16

/-- The flag word of a Flags value: the unnamed positions are 0 (R27, R28). -/
def Flags.toWord (F : Flags) : Word :=
  F.bit .CF ||| F.bit .PF ||| F.bit .AF ||| F.bit .ZF ||| F.bit .SF ||| F.bit .OF |||
  F.bit .TF ||| F.bit .IF ||| F.bit .DF

namespace Machine

/-- The operation categories of the derivation (R80). -/
inductive Category where
  | addLike
  | subLike
  | bcd
  deriving DecidableEq, Repr

/-- PARITY: the count of 1 bits in `r[7:0]` is even, whatever the width (R81). -/
def flagPF {n : Nat} (r : BitVec n) : Bool := popcount8 r % 2 == 0

/-- ZERO: `r == 0` over all n bits (R82). -/
def flagZF {n : Nat} (r : BitVec n) : Bool := r == 0#n

/-- SIGN: `r[n-1]` (R83). -/
def flagSF {n : Nat} (r : BitVec n) : Bool := r.msb

/-- CARRY, additive: `r < op1`, unsigned (R84). -/
def flagCFAdd {n : Nat} (op1 r : BitVec n) : Bool := r.ult op1

/-- CARRY, subtractive: `op2 > op1`, unsigned (R85). -/
def flagCFSub {n : Nat} (op1 op2 : BitVec n) : Bool := op1.ult op2

/-- AUXILIARY_CARRY, additive, from the three bit-3 values (R86). -/
def flagAFAdd {n : Nat} (op1 op2 r : BitVec n) : Bool :=
  (op1.getLsbD 3 && op2.getLsbD 3 && r.getLsbD 3) || (!r.getLsbD 3 && (op1.getLsbD 3 || op2.getLsbD 3))

/-- AUXILIARY_CARRY, subtractive: `lo4(op2) > lo4(op1)`, unsigned (R87). -/
def flagAFSub {n : Nat} (op1 op2 : BitVec n) : Bool := (lo4 op1).ult (lo4 op2)

/-- OVERFLOW, additive (R88). -/
def flagOFAdd {n : Nat} (op1 op2 r : BitVec n) : Bool := (op1.msb == op2.msb) && (r.msb != op1.msb)

/-- OVERFLOW, subtractive (R89). -/
def flagOFSub {n : Nat} (op1 op2 r : BitVec n) : Bool := (op1.msb != op2.msb) && (r.msb == op2.msb)

/-- `derive(cat, n, op1, op2, r)` (R80, R90): a subset of the six status flags. TF, IF and DF are never returned. -/
def derive {n : Nat} (cat : Category) (op1 op2 r : BitVec n) : Flags :=
  match cat with
  | .addLike =>
    { CF := flagCFAdd op1 r, PF := flagPF r, AF := flagAFAdd op1 op2 r,
      ZF := flagZF r, SF := flagSF r, OF := flagOFAdd op1 op2 r }
  | .subLike =>
    { CF := flagCFSub op1 op2, PF := flagPF r, AF := flagAFSub op1 op2,
      ZF := flagZF r, SF := flagSF r, OF := flagOFSub op1 op2 r }
  | .bcd => { PF := flagPF r, ZF := flagZF r, SF := flagSF r }

/-- The Flags value on port `flags_in`. -/
def State.inputFlags (s : State) : Flags := Flags.ofWord s.flagsIn

end Machine

end Sys2Proof
end

