-- ==== Sys2Proof/WellFormed.lean ====
section
/-! DEFINITION. Which calls of spec/30_encoding.md R70 are well formed. An `Instr` itself has no field to check: each of
the twenty constructors is an instruction of the spec (R3, R67). -/

namespace Sys2Proof

/-- R70: the forms with a second operand, `ADD8(a, b)` and its like. -/
def Instr.takesB : Instr → Bool
  | .add8 | .add16 | .adc8 | .adc16 | .sub8 | .sub16 | .sbb8 | .sbb16 | .cmp8 | .cmp16 => true
  | .inc8 | .inc16 | .dec8 | .dec16 | .neg8 | .neg16 | .aaa | .aas | .daa | .das => false

/-- R70: the forms with a Flags argument `F`. -/
def Instr.takesFlags : Instr → Bool
  | .adc8 | .adc16 | .sbb8 | .sbb16 | .inc8 | .inc16 | .dec8 | .dec16 | .aaa | .aas | .daa | .das => true
  | .add8 | .add16 | .sub8 | .sub16 | .neg8 | .neg16 | .cmp8 | .cmp16 => false

/-- The numeral for `a` fits the 16-bit port (R21). -/
def Call.aFits (c : Call) : Bool := decide (c.a < 2 ^ 16)

/-- `b` is given exactly when the form has it (R70). -/
def Call.bGiven (c : Call) : Bool := c.b.isSome == c.instr.takesB

/-- The numeral for `b`, where one is given, fits the 16-bit port (R21). -/
def Call.bFits (c : Call) : Bool := c.b.all (fun v => decide (v < 2 ^ 16))

/-- A form without `F` has no status flag beside it: it "is evaluated with `flags_in` = `{}`, except that TF, IF and DF
may be shown" (R70). -/
def Call.flagsAllowed (c : Call) : Bool :=
  c.instr.takesFlags ||
    !(c.flags.CF || c.flags.PF || c.flags.AF || c.flags.ZF || c.flags.SF || c.flags.OF)

/-- A well-formed call (R70). -/
def Call.wellFormed (c : Call) : Bool :=
  c.aFits && c.bGiven && c.bFits && c.flagsAllowed

end Sys2Proof
end

