-- ==== Sys2Proof/Machine/Ops.lean ====
section
/-! DEFINITION. The operations every meaning shares: presenting an evaluation on the input ports, and driving the output
ports from what an entry point returned. FDALU has no memory (spec/20_memory.md R50), no register file
(spec/10_state.md R23), no program counter (R24), and takes and returns from no exception (spec/60_exceptions.md R140,
R145, R146), so there is no operation for any of these. -/

namespace Sys2Proof.Machine

/-- The integrator presents an evaluation: it drives the four input ports together (R21, R164). The outputs of the last
evaluation stay until the next (DEDUCED: notes/assumptions/7.md). -/
def State.present (s : State) (op : Select) (a b flagsIn : Word) : State :=
  { s with op := op, a := a, b := b, flagsIn := flagsIn }

/-- The integrator presents a call of the block's assembly syntax (R70). A form with no `b` leaves the
ignored port at 0 (DESIGN CHOICE: notes/assumptions/10.md). -/
def State.presentCall (s : State) (c : Call) : State :=
  s.present (encode c.instr) (BitVec.ofNat 16 c.a) (BitVec.ofNat 16 (c.b.getD 0)) c.flags.toWord

/-- `flags_out = status_out | (flags_in & CONTROL_MASK)` (R32): the control flags pass through. -/
def flagsOutWord (status : Flags) (flagsIn : Word) : Word := status.toWord ||| (flagsIn &&& controlMask)

/-- The output ports for what an entry point returned; `op_err` is 0 for every legal select word (R66). -/
def outputsOf (flagsIn : Word) (ans : Answer) : Outputs where
  result := ans.value
  resWe := ans.writes
  flagsOut := flagsOutWord ans.status flagsIn
  opErr := false

/-- The end of an evaluation: the output ports are driven, and the input ports are as they were. -/
def State.drive (s : State) (o : Outputs) : State := { s with out := some o }

/-- Complete an evaluation with what its entry point returned. -/
def State.complete (s : State) (ans : Answer) : Host.Outcome State Fault Refusal :=
  .next (s.drive (outputsOf s.flagsIn ans))

/-- The outputs for a reserved select word (R66): `op_err` is a plain signal, not an exception (R142), and every named
flag is copied. -/
def reservedOutputs (flagsIn : Word) : Outputs where
  result := 0#16
  resWe := false
  flagsOut := flagsIn &&& namedMask
  opErr := true

/-- An evaluation of a reserved select word (R66; the spec's decision D12). -/
def State.completeReserved (s : State) : Host.Outcome State Fault Refusal :=
  .next (s.drive (reservedOutputs s.flagsIn))

end Sys2Proof.Machine
end

