-- ==== Sys2Proof/Machine/Bcd.lean ====
section
/-! DEFINITION. BCD adjust: AAA and AAS on the 16-bit accumulator, DAA and DAS on the 8-bit accumulator
(spec/43_bcd_adjust.md). -/

namespace Sys2Proof.Machine

/-- The `+` form of `adjust(P_AAX_ADJUST, sign, acc)`, for AAA (R120). -/
def adjustUp (p : AaxAdjust) (acc : Word) : Word :=
  match p with
  | .split => joinBytes (hi8 acc + 1#8) (lo8 acc + 6#8)
  | .word => acc + 0x0106#16

/-- The `-` form, for AAS (R120). -/
def adjustDown (p : AaxAdjust) (acc : Word) : Word :=
  match p with
  | .split => joinBytes (hi8 acc - 1#8) (lo8 acc - 6#8)
  | .word => acc - 0x0106#16

/-- `lo4(v) > 9 or flags_in.AF == 1`: the condition of AAA and AAS (R121, R122) and of step 1 of DAA and DAS (R124,
R125). -/
def lowDigitFires {n : Nat} (v : BitVec n) (F : Flags) : Bool := (9#4).ult (lo4 v) || F.AF

/-- `x > 0x9F or flags_in.CF == 1`: the condition of step 2 of DAA and DAS, on the pre-step-1 value (R124, R125). -/
def highDigitFires (x : Byte) (F : Flags) : Bool := (0x9F#8).ult x || F.CF

/-- The mask of the AAA and AAS results, which clears bits 7:4 (R121, R122; spec/90_conflicts.md C2). -/
def asciiMask : Word := 0xFF0F#16

/-- AAA (R121). -/
def entryAaa (p : AaxAdjust) (acc : Word) (F : Flags) : Answer where
  value := (if lowDigitFires acc F then adjustUp p acc else acc) &&& asciiMask
  writes := true
  status := { AF := lowDigitFires acc F, CF := lowDigitFires acc F }

/-- AAS (R122). -/
def entryAas (p : AaxAdjust) (acc : Word) (F : Flags) : Answer where
  value := (if lowDigitFires acc F then adjustDown p acc else acc) &&& asciiMask
  writes := true
  status := { AF := lowDigitFires acc F, CF := lowDigitFires acc F }

/-- Steps 1 and 2 of DAA (R124): both conditions test `x`, the pre-step-1 value, and each step wraps at 8 bits. -/
def decimalUp (x : Byte) (F : Flags) : Byte :=
  let t := if lowDigitFires x F then x + 0x06#8 else x
  if highDigitFires x F then t + 0x60#8 else t

/-- Steps 1 and 2 of DAS (R125). -/
def decimalDown (x : Byte) (F : Flags) : Byte :=
  let t := if lowDigitFires x F then x - 0x06#8 else x
  if highDigitFires x F then t - 0x60#8 else t

/-- The flags both DAA and DAS give: AF is "step 1 fired", CF is "step 2 fired", and PF, ZF and SF come from the final
value (R124, R125). -/
def decimalStatus (x : Byte) (F : Flags) (t : Byte) : Flags :=
  Flags.union { AF := lowDigitFires x F, CF := highDigitFires x F } (derive .bcd x 0#8 t)

/-- DAA (R124), with OF from `P_DAA_OF` (R123), which is given the input status flags: TF, IF and DF "always pass
through, with no effect on any status bit" (spec/90_conflicts.md C6; spec/60_exceptions.md R143, R148). -/
def entryDaa (daaOf : Byte → Flags → Bool) (x : Byte) (F : Flags) : Answer where
  value := zext16 (decimalUp x F)
  writes := true
  status := (decimalStatus x F (decimalUp x F)).union (.when .OF (daaOf x F.status))

/-- DAS (R125): OF is clear (spec/90_conflicts.md C7). -/
def entryDas (x : Byte) (F : Flags) : Answer where
  value := zext16 (decimalDown x F)
  writes := true
  status := decimalStatus x F (decimalDown x F)

/-- AAA (R121). -/
def execAaa (s : State) : Host.Outcome State Fault Refusal :=
  s.complete (entryAaa Config.aaxAdjust (s.opA 16) s.inputFlags)

/-- AAS (R122). -/
def execAas (s : State) : Host.Outcome State Fault Refusal :=
  s.complete (entryAas Config.aaxAdjust (s.opA 16) s.inputFlags)

/-- DAA (R124). -/
def execDaa (s : State) : Host.Outcome State Fault Refusal :=
  s.complete (entryDaa Config.daaOf (s.opA 8) s.inputFlags)

/-- DAS (R125). -/
def execDas (s : State) : Host.Outcome State Fault Refusal := s.complete (entryDas (s.opA 8) s.inputFlags)

end Sys2Proof.Machine
end

