-- ==== Sys2Proof/Machine/Binary.lean ====
section
/-! DEFINITION. Two-operand arithmetic: ADD, ADC, SUB and SBB (spec/41_binary_arith.md). Each entry point is a pure
function, generic in the width; each instruction's meaning applies it to the ports at its own width. -/

namespace Sys2Proof.Machine

/-- Whether a fold adds or subtracts (R100's `kind`). -/
inductive FoldKind where
  | add
  | sub
  deriving DecidableEq, Repr

/-- `fold(P_CARRY_IN_FOLD, kind, n, a, b, c)` (R100): the second operand the derivation sees, and the result. -/
def fold {n : Nat} (p : CarryInFold) (kind : FoldKind) (a b : BitVec n) (c : Bool) : BitVec n × BitVec n :=
  match p, kind with
  | .intoResult, .add => (b, a + b + carryValue n c)
  | .intoResult, .sub => (b, a - b - carryValue n c)
  | .intoOp2, .add => (b + carryValue n c, a + (b + carryValue n c))
  | .intoOp2, .sub => (b + carryValue n c, a - (b + carryValue n c))

/-- ADD (R101). -/
def entryAdd {n : Nat} (a b : BitVec n) : Answer where
  value := zext16 (a + b)
  writes := true
  status := derive .addLike a b (a + b)

/-- ADC (R102); the carry-in is `flags_in.CF` (R64). -/
def entryAdc {n : Nat} (p : CarryInFold) (a b : BitVec n) (F : Flags) : Answer where
  value := zext16 (fold p .add a b F.CF).2
  writes := true
  status := derive .addLike a (fold p .add a b F.CF).1 (fold p .add a b F.CF).2

/-- SUB (R103). -/
def entrySub {n : Nat} (a b : BitVec n) : Answer where
  value := zext16 (a - b)
  writes := true
  status := derive .subLike a b (a - b)

/-- SBB (R104); the borrow-in is `flags_in.CF` (R64). -/
def entrySbb {n : Nat} (p : CarryInFold) (a b : BitVec n) (F : Flags) : Answer where
  value := zext16 (fold p .sub a b F.CF).2
  writes := true
  status := derive .subLike a (fold p .sub a b F.CF).1 (fold p .sub a b F.CF).2

/-- ADD8 (R101). -/
def execAdd8 (s : State) : Host.Outcome State Fault Refusal := s.complete (entryAdd (s.opA 8) (s.opB 8))

/-- ADD16 (R101). -/
def execAdd16 (s : State) : Host.Outcome State Fault Refusal := s.complete (entryAdd (s.opA 16) (s.opB 16))

/-- ADC8 (R102). -/
def execAdc8 (s : State) : Host.Outcome State Fault Refusal :=
  s.complete (entryAdc Config.carryInFold (s.opA 8) (s.opB 8) s.inputFlags)

/-- ADC16 (R102). -/
def execAdc16 (s : State) : Host.Outcome State Fault Refusal :=
  s.complete (entryAdc Config.carryInFold (s.opA 16) (s.opB 16) s.inputFlags)

/-- SUB8 (R103). -/
def execSub8 (s : State) : Host.Outcome State Fault Refusal := s.complete (entrySub (s.opA 8) (s.opB 8))

/-- SUB16 (R103). -/
def execSub16 (s : State) : Host.Outcome State Fault Refusal := s.complete (entrySub (s.opA 16) (s.opB 16))

/-- SBB8 (R104). -/
def execSbb8 (s : State) : Host.Outcome State Fault Refusal :=
  s.complete (entrySbb Config.carryInFold (s.opA 8) (s.opB 8) s.inputFlags)

/-- SBB16 (R104). -/
def execSbb16 (s : State) : Host.Outcome State Fault Refusal :=
  s.complete (entrySbb Config.carryInFold (s.opA 16) (s.opB 16) s.inputFlags)

end Sys2Proof.Machine
end

