-- ==== Sys2Proof/Machine/Unary.lean ====
section
/-! DEFINITION. Increment, decrement, compare and negate: INC, DEC, CMP and NEG (spec/42_inc_dec_cmp_neg.md). -/

namespace Sys2Proof.Machine

/-- `(s \ {CF}) ∪ { CF | flags_in.CF }` (R110, R111): CARRY is carried over from the input Flags. -/
def keepCarry (status F : Flags) : Flags := (status.diff { CF := true }).union (.when .CF F.CF)

/-- INC (R110). -/
def entryInc {n : Nat} (a : BitVec n) (F : Flags) : Answer where
  value := zext16 (a + 1#n)
  writes := true
  status := keepCarry (derive .addLike a 1#n (a + 1#n)) F

/-- DEC (R111). -/
def entryDec {n : Nat} (a : BitVec n) (F : Flags) : Answer where
  value := zext16 (a - 1#n)
  writes := true
  status := keepCarry (derive .subLike a 1#n (a - 1#n)) F

/-- CMP (R112): the difference stands on the result bus and is not written back (R38). -/
def entryCmp {n : Nat} (a b : BitVec n) : Answer where
  value := zext16 (a - b)
  writes := false
  status := derive .subLike a b (a - b)

/-- NEG (R113): op1 of the derivation is 0, and op2 is `a` (R64). -/
def entryNeg {n : Nat} (a : BitVec n) : Answer where
  value := zext16 (0#n - a)
  writes := true
  status := derive .subLike 0#n a (0#n - a)

/-- INC8 (R110). -/
def execInc8 (s : State) : Host.Outcome State Fault Refusal := s.complete (entryInc (s.opA 8) s.inputFlags)

/-- INC16 (R110). -/
def execInc16 (s : State) : Host.Outcome State Fault Refusal := s.complete (entryInc (s.opA 16) s.inputFlags)

/-- DEC8 (R111). -/
def execDec8 (s : State) : Host.Outcome State Fault Refusal := s.complete (entryDec (s.opA 8) s.inputFlags)

/-- DEC16 (R111). -/
def execDec16 (s : State) : Host.Outcome State Fault Refusal := s.complete (entryDec (s.opA 16) s.inputFlags)

/-- NEG8 (R113). -/
def execNeg8 (s : State) : Host.Outcome State Fault Refusal := s.complete (entryNeg (s.opA 8))

/-- NEG16 (R113). -/
def execNeg16 (s : State) : Host.Outcome State Fault Refusal := s.complete (entryNeg (s.opA 16))

/-- CMP8 (R112). -/
def execCmp8 (s : State) : Host.Outcome State Fault Refusal := s.complete (entryCmp (s.opA 8) (s.opB 8))

/-- CMP16 (R112). -/
def execCmp16 (s : State) : Host.Outcome State Fault Refusal := s.complete (entryCmp (s.opA 16) (s.opB 16))

end Sys2Proof.Machine
end

