-- ==== Sys2Proof/Machine/Dispatch.lean ====
section
/-! DEFINITION. The dispatch: one arm per instruction, each a call of its meaning (spec/30_encoding.md R63). -/

namespace Sys2Proof.Machine

def exec (i : Instr) (s : State) : Host.Outcome State Fault Refusal :=
  match i with
  | .add8 => Sys2Proof.Machine.execAdd8 s
  | .add16 => Sys2Proof.Machine.execAdd16 s
  | .adc8 => Sys2Proof.Machine.execAdc8 s
  | .adc16 => Sys2Proof.Machine.execAdc16 s
  | .sub8 => Sys2Proof.Machine.execSub8 s
  | .sub16 => Sys2Proof.Machine.execSub16 s
  | .sbb8 => Sys2Proof.Machine.execSbb8 s
  | .sbb16 => Sys2Proof.Machine.execSbb16 s
  | .inc8 => Sys2Proof.Machine.execInc8 s
  | .inc16 => Sys2Proof.Machine.execInc16 s
  | .dec8 => Sys2Proof.Machine.execDec8 s
  | .dec16 => Sys2Proof.Machine.execDec16 s
  | .neg8 => Sys2Proof.Machine.execNeg8 s
  | .neg16 => Sys2Proof.Machine.execNeg16 s
  | .cmp8 => Sys2Proof.Machine.execCmp8 s
  | .cmp16 => Sys2Proof.Machine.execCmp16 s
  | .aaa => Sys2Proof.Machine.execAaa s
  | .aas => Sys2Proof.Machine.execAas s
  | .daa => Sys2Proof.Machine.execDaa s
  | .das => Sys2Proof.Machine.execDas s

end Sys2Proof.Machine
end

