-- ==== Sys2Proof/Machine/Step.lean ====
section
/-! DEFINITION. One step: one evaluation, from the input ports to the output ports, as one atomic step
(spec/70_reset_and_hazards.md R161, R164). -/

namespace Sys2Proof.Machine

/-- The operation is chosen by the select word on port `op` (R60); a reserved select word has the output of R66. -/
def step (s : State) : Host.Outcome State Fault Refusal :=
  match decode s.op with
  | .instr i => exec i s
  | .reserved _ => s.completeReserved

/-- `s` with the select word `w` presented on port `op`, from where the next step takes its operation. FDALU fetches
nothing (R24): the integrator presents each operation (notes/assumptions/8.md). -/
def State.withFetchWord (s : State) (nbits w : Nat) : State := { s with op := BitVec.ofNat 5 (w % 2 ^ nbits) }

end Sys2Proof.Machine
end

