-- ==== Sys2Proof/Machine/Text.lean ====
section
/-! DEFINITION. The textual call syntax of spec/30_encoding.md R70, as a list of characters, read and written: a mnemonic
with its width suffix, numerals in C hex or decimal notation, and a Flags set literal with short or long names (R15). -/

namespace Sys2Proof.Machine

/-- The tokens of a call. -/
inductive Token where
  | word (cs : List Char)
  | lparen
  | rparen
  | comma
  | lbrace
  | rbrace
  deriving DecidableEq, Repr

/-- A character that is a token of its own. The braces are characters 123 and 125. -/
def punctuation (c : Char) : Option Token :=
  if c = '(' then some .lparen
  else if c = ')' then some .rparen
  else if c = ',' then some .comma
  else if c.toNat = 123 then some .lbrace
  else if c.toNat = 125 then some .rbrace
  else none

/-- The word gathered so far, if there is one. -/
def endWord (acc : List Char) : List Token := if acc = [] then [] else [.word acc]

/-- Cut a text into tokens; a space ends a word. `acc` is the word gathered so far. -/
def tokens (acc : List Char) : List Char → List Token
  | [] => endWord acc
  | c :: cs =>
    match punctuation c with
    | some t => endWord acc ++ t :: tokens [] cs
    | none => if c = ' ' then endWord acc ++ tokens [] cs else tokens (acc ++ [c]) cs

/-- The value of a digit in base 16; decimal digits are the values below 10. -/
def digitValue (c : Char) : Option Nat :=
  if 48 ≤ c.toNat ∧ c.toNat ≤ 57 then some (c.toNat - 48)
  else if 65 ≤ c.toNat ∧ c.toNat ≤ 70 then some (c.toNat - 55)
  else if 97 ≤ c.toNat ∧ c.toNat ≤ 102 then some (c.toNat - 87)
  else none

/-- Read digits in a base, after the value read so far. -/
def digits (base : Nat) (acc : Nat) : List Char → Option Nat
  | [] => some acc
  | c :: cs =>
    match digitValue c with
    | some d => if d < base then digits base (acc * base + d) cs else none
    | none => none

/-- A numeral: `0x..` or decimal (R70). -/
def numeral : List Char → Option Nat
  | '0' :: 'x' :: d :: ds => digits 16 0 (d :: ds)
  | d :: ds => digits 10 0 (d :: ds)
  | [] => none

/-- The mnemonic, with its width suffix, of each instruction (R63, R70). -/
def mnemonicOf : Instr → List Char
  | .add8 => ['A', 'D', 'D', '8']
  | .add16 => ['A', 'D', 'D', '1', '6']
  | .adc8 => ['A', 'D', 'C', '8']
  | .adc16 => ['A', 'D', 'C', '1', '6']
  | .sub8 => ['S', 'U', 'B', '8']
  | .sub16 => ['S', 'U', 'B', '1', '6']
  | .sbb8 => ['S', 'B', 'B', '8']
  | .sbb16 => ['S', 'B', 'B', '1', '6']
  | .inc8 => ['I', 'N', 'C', '8']
  | .inc16 => ['I', 'N', 'C', '1', '6']
  | .dec8 => ['D', 'E', 'C', '8']
  | .dec16 => ['D', 'E', 'C', '1', '6']
  | .neg8 => ['N', 'E', 'G', '8']
  | .neg16 => ['N', 'E', 'G', '1', '6']
  | .cmp8 => ['C', 'M', 'P', '8']
  | .cmp16 => ['C', 'M', 'P', '1', '6']
  | .aaa => ['A', 'A', 'A']
  | .aas => ['A', 'A', 'S']
  | .daa => ['D', 'A', 'A']
  | .das => ['D', 'A', 'S']

/-- The twenty entry points (R3). -/
def allInstrs : List Instr :=
  [.add8, .add16, .adc8, .adc16, .sub8, .sub16, .sbb8, .sbb16, .inc8, .inc16, .dec8, .dec16, .neg8, .neg16, .cmp8,
    .cmp16, .aaa, .aas, .daa, .das]

/-- The instruction a mnemonic names. -/
def instrNamed (m : List Char) : Option Instr := allInstrs.find? fun i => decide (mnemonicOf i = m)

/-- The nine flags, in the order of R25. -/
def allFlags : List Flag := [.CF, .PF, .AF, .ZF, .SF, .OF, .TF, .IF, .DF]

/-- The short or the long name of a flag (R15). -/
def flagName (long : Bool) (f : Flag) : List Char :=
  match long, f with
  | false, .CF => ['C', 'F']
  | false, .PF => ['P', 'F']
  | false, .AF => ['A', 'F']
  | false, .ZF => ['Z', 'F']
  | false, .SF => ['S', 'F']
  | false, .OF => ['O', 'F']
  | false, .TF => ['T', 'F']
  | false, .IF => ['I', 'F']
  | false, .DF => ['D', 'F']
  | true, .CF => ['C', 'A', 'R', 'R', 'Y']
  | true, .PF => ['P', 'A', 'R', 'I', 'T', 'Y']
  | true, .AF => ['A', 'U', 'X', 'I', 'L', 'I', 'A', 'R', 'Y', '_', 'C', 'A', 'R', 'R', 'Y']
  | true, .ZF => ['Z', 'E', 'R', 'O']
  | true, .SF => ['S', 'I', 'G', 'N']
  | true, .OF => ['O', 'V', 'E', 'R', 'F', 'L', 'O', 'W']
  | true, .TF => ['T', 'R', 'A', 'P']
  | true, .IF => ['I', 'N', 'T', 'E', 'R', 'R', 'U', 'P', 'T']
  | true, .DF => ['D', 'I', 'R', 'E', 'C', 'T', 'I', 'O', 'N']

/-- The flag a name stands for, short or long. -/
def flagNamed (m : List Char) : Option Flag :=
  allFlags.find? fun f => decide (flagName false f = m) || decide (flagName true f = m)

/-- The rest of a set literal after one of its flags, up to its closing brace, with what follows it. -/
def flagsTail (F : Flags) : List Token → Option (Flags × List Token)
  | .rbrace :: ts => some (F, ts)
  | .comma :: .word f :: ts => (flagNamed f).bind fun g => flagsTail (F.union (.when g true)) ts
  | _ => none

/-- A Flags set literal, after its opening brace. -/
def flagsLiteral : List Token → Option (Flags × List Token)
  | .rbrace :: ts => some ({}, ts)
  | .word f :: ts => (flagNamed f).bind fun g => flagsTail (.when g true) ts
  | _ => none

/-- The end of an argument list: `, F )` where the form has a Flags argument, and `)` where it has not (R70). -/
def callEnd (i : Instr) (a : Nat) (b : Option Nat) (ts : List Token) : Option Call :=
  if i.takesFlags then
    match ts with
    | .comma :: .lbrace :: ts =>
      match flagsLiteral ts with
      | some (F, [.rparen]) => some { instr := i, a := a, b := b, flags := F }
      | _ => none
    | _ => none
  else if ts = [.rparen] then some { instr := i, a := a, b := b } else none

/-- The call that a list of tokens spells, before the check of WellFormed.lean. -/
def callOfTokens : List Token → Option Call
  | .word m :: .lparen :: .word va :: ts =>
    (instrNamed m).bind fun i => (numeral va).bind fun a =>
      if i.takesB then
        match ts with
        | .comma :: .word vb :: ts => (numeral vb).bind fun b => callEnd i a (some b) ts
        | _ => none
      else callEnd i a none ts
  | _ => none

/-- Read a call of R70; a text that spells no well-formed call is refused. -/
def parseCall (text : List Char) : Option Call :=
  (callOfTokens (tokens [] text)).bind fun c => if c.wellFormed then some c else none

/-! ### Writing a call -/

/-- The notations R70 leaves to the writer: hex or decimal for each numeral, and long or short flag names. -/
structure Style where
  aHex : Bool
  bHex : Bool
  longNames : Bool
  deriving DecidableEq, Repr

/-- The character of a digit below 16. -/
def digitChar (d : Nat) : Char := Char.ofNat (if d < 10 then 48 + d else 55 + d)

/-- The digits of a number below `base ^ fuel`, with no leading zero. -/
def digitsOf (base : Nat) : Nat → Nat → List Char
  | 0, _ => []
  | fuel + 1, v => if v < base then [digitChar v] else digitsOf base fuel (v / base) ++ [digitChar (v % base)]

/-- A port value as a numeral (R70): 16 digits are enough for it in any base. -/
def printNumeral (hex : Bool) (v : Nat) : List Char := if hex then '0' :: 'x' :: digitsOf 16 16 v else digitsOf 10 16 v

/-- The names of some flags, each after a comma, up to the closing brace of the set literal. -/
def printFlagsTail (long : Bool) : List Flag → List Char
  | [] => [Char.ofNat 125]
  | f :: fs => ',' :: ' ' :: (flagName long f ++ printFlagsTail long fs)

/-- The Flags set literal with these members, after its opening brace. -/
def printFlagsBody (long : Bool) : List Flag → List Char
  | [] => [Char.ofNat 125]
  | f :: fs => flagName long f ++ printFlagsTail long fs

/-- A Flags set literal (R15, R70). -/
def printFlags (long : Bool) (F : Flags) : List Char := Char.ofNat 123 :: printFlagsBody long (allFlags.filter F.mem)

/-- The text of a call (R70): its mnemonic, and the arguments its form has. TF, IF and DF beside a form without `F` are
no part of the text. -/
def printCall (st : Style) (c : Call) : List Char :=
  mnemonicOf c.instr ++ '(' :: (printNumeral st.aHex c.a ++
    ((match c.b with
      | some v => ',' :: ' ' :: printNumeral st.bHex v
      | none => []) ++
    ((if c.instr.takesFlags then ',' :: ' ' :: printFlags st.longNames c.flags else []) ++ [')'])))

end Sys2Proof.Machine
end

