-- ==== Sys2Proof/Safety.lean ====
section
/-! DEFINITION. The terms in which claims about FDALU are stated: an evaluation presented and answered, the answer written
out as port values, the flags of exact integer arithmetic, and the invariant of the ports. Written from the spec's own
arithmetic on numbers and bits, apart from the functions of Machine/, so that a claim holds the two against each other. -/

namespace Sys2Proof.Safety

open Sys2Proof.Machine

/-- A safe evaluation: with these values presented on the input ports, one step completes, drives the output ports to
`o` and leaves the input ports as presented (spec/70_reset_and_hazards.md R161, R164). -/
def Evaluates (s : State) (op : Select) (a b flagsIn : Word) (o : Outputs) : Prop :=
  step (s.present op a b flagsIn) = .next { op := op, a := a, b := b, flagsIn := flagsIn, out := some o }

/-- The six status flags at their places in the flag word (spec/10_state.md R27). -/
def statusWord (cf pf af zf sf of : Bool) : Word :=
  (if cf then 0x0001#16 else 0#16) ||| (if pf then 0x0004#16 else 0#16) ||| (if af then 0x0010#16 else 0#16) |||
  (if zf then 0x0040#16 else 0#16) ||| (if sf then 0x0080#16 else 0#16) ||| (if of then 0x0800#16 else 0#16)

/-- The state after a legal operation on `s`: the result, the write-enable and the status word as given, TF, IF and DF
from `flags_in` (R32), `op_err` at 0 (R66), and every input port as before. -/
def answered (s : State) (result : Word) (resWe : Bool) (status : Word) : State :=
  { s with out := some { result := result, resWe := resWe, flagsOut := status ||| (s.flagsIn &&& 0x0700#16), opErr := false } }

/-- The number of 1 bits in `v[7:0]` is even (R81). -/
def evenParity {n : Nat} (v : BitVec n) : Bool := decide ((List.range 8).countP (fun i => v.getLsbD i) % 2 = 0)

/-- `derive(ADD_LIKE, n, op1, op2, r)` as a status word (spec/40_flag_derivation.md R81-R84, R86, R88, R90). -/
def additiveStatus {n : Nat} (op1 op2 r : BitVec n) : Word :=
  statusWord
    (cf := decide (r.toNat < op1.toNat))
    (pf := evenParity r)
    (af := (op1.getLsbD 3 && op2.getLsbD 3 && r.getLsbD 3) || (!r.getLsbD 3 && (op1.getLsbD 3 || op2.getLsbD 3)))
    (zf := decide (r.toNat = 0))
    (sf := r.getLsbD (n - 1))
    (of := (op1.getLsbD (n - 1) == op2.getLsbD (n - 1)) && (r.getLsbD (n - 1) != op1.getLsbD (n - 1)))

/-- `derive(SUB_LIKE, n, op1, op2, r)` as a status word (R81-R83, R85, R87, R89, R90). -/
def subtractiveStatus {n : Nat} (op1 op2 r : BitVec n) : Word :=
  statusWord
    (cf := decide (op1.toNat < op2.toNat))
    (pf := evenParity r)
    (af := decide (op1.toNat % 16 < op2.toNat % 16))
    (zf := decide (r.toNat = 0))
    (sf := r.getLsbD (n - 1))
    (of := (op1.getLsbD (n - 1) != op2.getLsbD (n - 1)) && (r.getLsbD (n - 1) == op2.getLsbD (n - 1)))

/-- R100: the second operand that the derivation of ADC and SBB sees, for each fold of the carry-in `c`. -/
def foldedOp2 {n : Nat} (p : CarryInFold) (b : BitVec n) (c : Bool) : BitVec n :=
  match p with
  | .intoResult => b
  | .intoOp2 => BitVec.ofNat n (b.toNat + c.toNat)

/-- Exact addition carries out of bit n-1 (R94). -/
def CarriesOut {n : Nat} (a b : BitVec n) (c : Bool) : Prop := 2 ^ n ≤ a.toNat + b.toNat + c.toNat

/-- Exact addition carries from bit 3 into bit 4 (R94). -/
def NibbleCarries {n : Nat} (a b : BitVec n) (c : Bool) : Prop := 16 ≤ a.toNat % 16 + b.toNat % 16 + c.toNat

/-- The exact two's-complement sum does not fit n bits (R94, R17). -/
def SumOverflows {n : Nat} (a b : BitVec n) (c : Bool) : Prop :=
  a.toInt + b.toInt + c.toNat < -2 ^ (n - 1) ∨ 2 ^ (n - 1) ≤ a.toInt + b.toInt + c.toNat

/-- Exact subtraction borrows out of bit n-1 (R94). -/
def BorrowsOut {n : Nat} (a b : BitVec n) (c : Bool) : Prop := a.toNat < b.toNat + c.toNat

/-- Exact subtraction borrows from bit 4 into bit 3 (R94). -/
def NibbleBorrows {n : Nat} (a b : BitVec n) (c : Bool) : Prop := a.toNat % 16 < b.toNat % 16 + c.toNat

/-- The exact two's-complement difference does not fit n bits (R94, R17). -/
def DifferenceOverflows {n : Nat} (a b : BitVec n) (c : Bool) : Prop :=
  a.toInt - b.toInt - c.toNat < -2 ^ (n - 1) ∨ 2 ^ (n - 1) ≤ a.toInt - b.toInt - c.toNat

/-- CF of `flags_out` is as given. -/
def CarryIs (o : Outputs) (p : Prop) : Prop := o.flagsOut[0] = true ↔ p

/-- AF of `flags_out` is as given. -/
def AuxIs (o : Outputs) (p : Prop) : Prop := o.flagsOut[4] = true ↔ p

/-- OF of `flags_out` is as given. -/
def OverflowIs (o : Outputs) (p : Prop) : Prop := o.flagsOut[11] = true ↔ p

/-- R100's table, the row of ADC: with the carry-in `c`, which of CF, AF and OF differ from the exact full adder, and
exactly when. -/
def SumFlagsUnderFold {n : Nat} (p : CarryInFold) (a b : BitVec n) (c : Bool) (o : Outputs) : Prop :=
  match p with
  | .intoResult =>
    (CarryIs o (CarriesOut a b c) ↔ ¬(c = true ∧ b.toNat = 2 ^ n - 1)) ∧
    AuxIs o (NibbleCarries a b c) ∧
    OverflowIs o (SumOverflows a b c)
  | .intoOp2 =>
    (CarryIs o (CarriesOut a b c) ↔ ¬(c = true ∧ b.toNat = 2 ^ n - 1)) ∧
    (AuxIs o (NibbleCarries a b c) ↔ ¬(c = true ∧ b.toNat % 16 = 15)) ∧
    (OverflowIs o (SumOverflows a b c) ↔ ¬(c = true ∧ b.toNat = 2 ^ (n - 1) - 1))

/-- R100's table, the row of SBB: with the borrow-in `c`, which of CF, AF and OF differ from the exact subtractor, and
exactly when. -/
def DifferenceFlagsUnderFold {n : Nat} (p : CarryInFold) (a b : BitVec n) (c : Bool) (o : Outputs) : Prop :=
  match p with
  | .intoResult =>
    (CarryIs o (BorrowsOut a b c) ↔ ¬(c = true ∧ b = a)) ∧
    (AuxIs o (NibbleBorrows a b c) ↔ ¬(c = true ∧ b.toNat % 16 = a.toNat % 16)) ∧
    OverflowIs o (DifferenceOverflows a b c)
  | .intoOp2 =>
    (CarryIs o (BorrowsOut a b c) ↔ ¬(c = true ∧ b.toNat = 2 ^ n - 1)) ∧
    (AuxIs o (NibbleBorrows a b c) ↔ ¬(c = true ∧ b.toNat % 16 = 15)) ∧
    (OverflowIs o (DifferenceOverflows a b c) ↔ ¬(c = true ∧ b.toNat = 2 ^ (n - 1) - 1))

/-- The condition of AAA, AAS and step 1 of DAA and DAS, on numbers (spec/43_bcd_adjust.md R121, R124). -/
def lowFires (v : Nat) (flagsIn : Word) : Bool := decide (9 < v % 16) || flagsIn[4]

/-- The condition of step 2 of DAA and DAS, on numbers (R124). -/
def highFires (x : Nat) (flagsIn : Word) : Bool := decide (0x9F < x) || flagsIn[0]

/-- R120, R121: what AAA makes of the accumulator before the mask, on numbers. -/
def adjustedUp (p : AaxAdjust) (acc : Nat) : Nat :=
  match p with
  | .split => (acc / 256 + 1) % 256 * 256 + (acc % 256 + 6) % 256
  | .word => (acc + 0x0106) % 65536

/-- R120, R122: what AAS makes of the accumulator before the mask, on numbers. -/
def adjustedDown (p : AaxAdjust) (acc : Nat) : Nat :=
  match p with
  | .split => (acc / 256 + 255) % 256 * 256 + (acc % 256 + 250) % 256
  | .word => (acc + 65536 - 0x0106) % 65536

/-- A packed BCD byte: both digits at most 9. -/
def Packed (v : Nat) : Prop := v % 16 ≤ 9 ∧ v / 16 ≤ 9

/-- The number a packed BCD byte stands for. -/
def unpack (v : Nat) : Nat := v / 16 * 10 + v % 16

/-- What the outputs of an evaluation with the input ports of `s` keep to, whichever the operation. -/
structure OutputsLegal (s : State) (o : Outputs) : Prop where
  /-- the unnamed positions are driven 0 (R28) -/
  unnamedClear : o.flagsOut &&& 0xF02A#16 = 0#16
  /-- TF, IF and DF pass through (R32) -/
  controlPasses : o.flagsOut &&& 0x0700#16 = s.flagsIn &&& 0x0700#16
  /-- `op_err` marks the reserved function codes 12 to 15 (R66) -/
  opErrReserved : o.opErr = decide (12 ≤ s.op.toNat % 16)
  /-- `res_we` is 0 for CMP and the reserved words alone (R38) -/
  writeEnable : o.resWe = decide (s.op.toNat % 16 ≠ 7 ∧ s.op.toNat % 16 < 12)
  /-- `result[15:8]` is 0 for the 8-bit operations, DAA and DAS (R37) -/
  narrowResult : s.op.toNat < 8 ∨ s.op.toNat % 16 = 10 ∨ s.op.toNat % 16 = 11 → o.result.toNat < 256
  /-- bits 7:4 of an AAA or AAS result are 0 (R121, R122) -/
  asciiResult : s.op.toNat % 16 = 8 ∨ s.op.toNat % 16 = 9 → o.result &&& 0x00F0#16 = 0#16
  /-- a reserved word gives no result and copies the named flags (R66) -/
  reservedOutput : 12 ≤ s.op.toNat % 16 → o.result = 0#16 ∧ o.flagsOut = s.flagsIn &&& 0x0FD5#16

/-- The invariant of the ports: whatever the output ports show is legal for the inputs on the input ports. Nothing is
asked before the first evaluation (R161). -/
def PortsLegal (s : State) : Prop := ∀ o, s.out = some o → OutputsLegal s o

end Sys2Proof.Safety
end

