-- ==== Sys2Proof/Certificates/Slice0/Obligations.lean ====
section
/-! DEFINITION. The statements about FDALU for the provers. Each is about every state unless it says otherwise; where a
statement says that an evaluation answers a next state, it names that whole state, so what it does not name is
unchanged. -/

open Sys2Proof Sys2Proof.Machine Sys2Proof.Safety

/-! ### The select word -/

/-- R69: decoding of all 32 select words, each written out. -/
def Obligations.EverySelectWordDecodes : Prop :=
  decode 0b00000#5 = .instr .add8 ∧ decode 0b10000#5 = .instr .add16 ∧
  decode 0b00001#5 = .instr .adc8 ∧ decode 0b10001#5 = .instr .adc16 ∧
  decode 0b00010#5 = .instr .sub8 ∧ decode 0b10010#5 = .instr .sub16 ∧
  decode 0b00011#5 = .instr .sbb8 ∧ decode 0b10011#5 = .instr .sbb16 ∧
  decode 0b00100#5 = .instr .inc8 ∧ decode 0b10100#5 = .instr .inc16 ∧
  decode 0b00101#5 = .instr .dec8 ∧ decode 0b10101#5 = .instr .dec16 ∧
  decode 0b00110#5 = .instr .neg8 ∧ decode 0b10110#5 = .instr .neg16 ∧
  decode 0b00111#5 = .instr .cmp8 ∧ decode 0b10111#5 = .instr .cmp16 ∧
  decode 0b01000#5 = .instr .aaa ∧ decode 0b11000#5 = .instr .aaa ∧
  decode 0b01001#5 = .instr .aas ∧ decode 0b11001#5 = .instr .aas ∧
  decode 0b01010#5 = .instr .daa ∧ decode 0b11010#5 = .instr .daa ∧
  decode 0b01011#5 = .instr .das ∧ decode 0b11011#5 = .instr .das ∧
  decode 0b01100#5 = .reserved 0b01100#5 ∧ decode 0b11100#5 = .reserved 0b11100#5 ∧
  decode 0b01101#5 = .reserved 0b01101#5 ∧ decode 0b11101#5 = .reserved 0b11101#5 ∧
  decode 0b01110#5 = .reserved 0b01110#5 ∧ decode 0b11110#5 = .reserved 0b11110#5 ∧
  decode 0b01111#5 = .reserved 0b01111#5 ∧ decode 0b11111#5 = .reserved 0b11111#5

/-- R62, R63, R67: decoding an encoded instruction gives it back, in its canonical and in its alias spelling; and a
select word that decodes to an instruction is one of that instruction's two spellings, which differ for AAA, AAS, DAA
and DAS alone. No select word stands for two instructions, and no bit of one is dropped but the width bit of those
four. -/
def Obligations.DecodeAndEncodeAgree : Prop :=
  (∀ i : Instr, decode (encode i) = .instr i ∧ decode (encodeAlias i) = .instr i) ∧
  (∀ (i : Instr) (op : Select), decode op = .instr i → op = encode i ∨ op = encodeAlias i) ∧
  (∀ i : Instr, encodeAlias i = encode i ↔ i ∉ [Instr.aaa, .aas, .daa, .das])

/-- R60, R68: what the decoder reads from the bits of a table row is what the next step runs when those bits are
presented, and presenting them changes port `op` alone. That a program is presented from outside, by `withFetchWord`, and
which table bits `decodeTableWord` takes for a select word, are the model's choices (DESIGN CHOICE:
notes/assumptions/8.md and 9.md). -/
def Obligations.PresentedTableWordRuns : Prop :=
  ∀ (s : State) (nbits w : Nat) (i : Instr), decodeTableWord nbits w = some i →
    step (s.withFetchWord nbits w) = exec i (s.withFetchWord nbits w) ∧
    (s.withFetchWord nbits w).op.toNat = w % 2 ^ nbits ∧
    s.withFetchWord nbits w = { s with op := (s.withFetchWord nbits w).op }

/-- R60: a step on a select word that decodes to an instruction is `exec` of that instruction, and nothing beside it:
there is no program counter to move and no other effect of the step. -/
def Obligations.StepRunsDecodedInstruction : Prop :=
  ∀ (s : State) (i : Instr), decode s.op = .instr i → step s = exec i s

/-- R66: a reserved select word asserts `op_err`, gives no result, copies every named flag, and clears the unnamed
bits; it raises nothing. For every legal select word `op_err` is 0. -/
def Obligations.ReservedWordOutputs : Prop :=
  (∀ s : State, 12 ≤ s.op.toNat % 16 →
    step s = .next { s with out := some { result := 0#16, resWe := false, flagsOut := s.flagsIn &&& 0x0FD5#16, opErr := true } }) ∧
  (∀ s : State, s.op.toNat % 16 < 12 → ∃ o, step s = .next { s with out := some o } ∧ o.opErr = false)

/-- R62: the width bit of AAA, AAS, DAA and DAS is ignored: both spellings give the same outputs. -/
def Obligations.BcdWidthBitIgnored : Prop :=
  ∀ s : State, 8 ≤ s.op.toNat % 16 → s.op.toNat % 16 ≤ 11 →
    ∃ o, step s = .next { s with out := some o } ∧
      step { s with op := s.op ^^^ 0b10000#5 } = .next { s with op := s.op ^^^ 0b10000#5, out := some o }

/-- R70: a well-formed call presents its numerals on `a` and `b` and its Flags on `flags_in`, with no status flag there
for a form without `F`, and the step on it runs the instruction its mnemonic names. -/
def Obligations.WellFormedCallRuns : Prop :=
  ∀ (s : State) (c : Call), c.wellFormed = true →
    step (s.presentCall c) = exec c.instr (s.presentCall c) ∧
    (s.presentCall c).a.toNat = c.a ∧
    (∀ v, c.b = some v → (s.presentCall c).b.toNat = v) ∧
    Flags.ofWord (s.presentCall c).flagsIn = c.flags ∧
    (c.instr.takesFlags = false → (s.presentCall c).flagsIn &&& 0x08D5#16 = 0#16)

/-- R70, R15: the source's calls, read from their characters: hex and decimal numerals, the empty set, and the long flag
names. -/
def Obligations.SourceCallsAreRead : Prop :=
  parseCall
    ['A', 'D', 'D', '8', '(', '0', 'x', 'F', 'F', ',', ' ', '1', ')'] =
    some { instr := .add8, a := 0xFF, b := some 1 } ∧
  parseCall
    ['S', 'U', 'B', '8', '(', '0', 'x', '8', '0', ',', ' ', '0', 'x', '7', 'F', ')'] =
    some { instr := .sub8, a := 0x80, b := some 0x7F } ∧
  parseCall
    ['I', 'N', 'C', '1', '6', '(', '0', 'x', 'F', 'F', 'F', 'F', ',', ' ', Char.ofNat 123, Char.ofNat 125, ')'] =
    some { instr := .inc16, a := 0xFFFF } ∧
  parseCall
    ['D', 'A', 'A', '(', '0', 'x', 'A', 'E', ',', ' ', Char.ofNat 123, 'S', 'I', 'G', 'N', Char.ofNat 125, ')'] =
    some { instr := .daa, a := 0xAE, flags := { SF := true } } ∧
  parseCall
    ['A', 'A', 'S', '(', '0', 'x', '5', 'C', '7', ',', ' ', Char.ofNat 123, 'C', 'A', 'R', 'R', 'Y', ',', ' ', 'S',
      'I', 'G', 'N', Char.ofNat 125, ')'] =
    some { instr := .aas, a := 0x5C7, flags := { CF := true, SF := true } }

/-- R70: a text that is read as a call spells that call, and the call is well formed: the text's first token is the
mnemonic of its instruction, its numerals are those of `a` and, where the form has one, of `b`, it ends with a set
literal of its Flags where the form has `F` and with `)` where it has not; and presenting the call makes the next step
run its instruction, whatever the state. -/
def Obligations.ReadCallRuns : Prop :=
  ∀ (text : List Char) (c : Call), parseCall text = some c →
    c.wellFormed = true ∧
    (∃ va ts us, tokens [] text = .word (mnemonicOf c.instr) :: .lparen :: .word va :: ts ∧ numeral va = some c.a ∧
      (if c.instr.takesB then ∃ vb, ts = .comma :: .word vb :: us ∧ c.b.isSome = true ∧ numeral vb = c.b
        else ts = us ∧ c.b = none) ∧
      (if c.instr.takesFlags then ∃ fs, us = .comma :: .lbrace :: fs ∧ flagsLiteral fs = some (c.flags, [.rparen])
        else us = [.rparen] ∧ c.flags = {})) ∧
    (∀ s : State, step (s.presentCall c) = exec c.instr (s.presentCall c))

/-- R70, R15: every well-formed call, written in any style (hex or decimal for each numeral, long or short flag names),
is read back as that call. The calls are those whose text says all of them: TF, IF and DF "shown beside" a form without
`F` are no part of its text. -/
def Obligations.PrintedCallIsRead : Prop :=
  ∀ (st : Style) (c : Call), c.wellFormed = true → (c.instr.takesFlags = false → c.flags = {}) →
    parseCall (printCall st c) = some c

/-! ### The whole block -/

/-- R19, R140: no input makes an operation fail, trap or stop: every instruction, and every step, answers a next state,
with all four outputs driven and the input ports as they were. -/
def Obligations.EveryEvaluationCompletes : Prop :=
  (∀ (i : Instr) (s : State), ∃ o, exec i s = .next { s with out := some o }) ∧
  (∀ s : State, ∃ o, step s = .next { s with out := some o })

/-- R42: two evaluations with equal inputs give equal outputs, whatever each state held from before. -/
def Obligations.EqualInputsGiveEqualOutputs : Prop :=
  ∀ s s' : State, s.op = s'.op → s.a = s'.a → s.b = s'.b → s.flagsIn = s'.flagsIn →
    ∃ o, step s = .next { s with out := some o } ∧ step s' = .next { s' with out := some o }

/-- R54: an evaluation is idempotent: repeating it gives the same outputs, that is, the same state. -/
def Obligations.EvaluationIsIdempotent : Prop :=
  ∀ s : State, ∃ t, step s = .next t ∧ step t = .next t

/-- R161: no output value exists at reset. The inputs at reset are the model's choice: zero on `op`, `a` and `b`
(notes/assumptions/1.md), and on `flags_in` the open parameter of R40 (notes/assumptions/2.md). -/
def Obligations.ResetHasNoOutput : Prop :=
  State.reset = { op := 0#5, a := 0#16, b := 0#16, flagsIn := Config.integratorFlagsReset, out := none }

/-- The invariant of the ports holds at reset (R161). -/
def Obligations.ResetPortsLegal : Prop := PortsLegal State.reset

/-- R28, R32, R37, R38, R66, R121, R122: every step keeps the invariant of the ports, which says of the output ports
that unnamed flag bits are 0, the control flags are the input's, `op_err` and `res_we` follow the function code, narrow
results have a zero upper byte, AAA and AAS results have bits 7:4 clear, and reserved words have the output of R66. -/
def Obligations.StepKeepsPortsLegal : Prop :=
  ∀ s t : State, PortsLegal s → step s = .next t → PortsLegal t

/-- R32: TF, IF and DF pass through for every select word, reserved ones included. -/
def Obligations.ControlFlagsPassThrough : Prop :=
  ∀ s : State, ∃ o, step s = .next { s with out := some o } ∧ o.flagsOut &&& 0x0700#16 = s.flagsIn &&& 0x0700#16

/-- R148, and R143 and C6 for IF: TF, IF and DF of `flags_in` have no effect inside the block but to pass through: for
every select word, two values of `flags_in` with the same status flags give the same result, `res_we`, `op_err` and
status flags, and each evaluation gives its own TF, IF and DF back. -/
def Obligations.ControlFlagsHaveNoEffect : Prop :=
  ∀ (s : State) (f : Word), f &&& 0x08D5#16 = s.flagsIn &&& 0x08D5#16 →
    ∃ (result status : Word) (resWe opErr : Bool), status &&& ~~~0x08D5#16 = 0#16 ∧
      step s = .next { s with out := some ⟨result, resWe, status ||| (s.flagsIn &&& 0x0700#16), opErr⟩ } ∧
      step { s with flagsIn := f } =
        .next { s with flagsIn := f, out := some ⟨result, resWe, status ||| (f &&& 0x0700#16), opErr⟩ }

/-- R28: the unnamed positions of `flags_in` change no output, and those of `flags_out` are 0. -/
def Obligations.UnnamedFlagBitsIgnoredAndClear : Prop :=
  ∀ (s : State) (f : Word), f &&& 0x0FD5#16 = s.flagsIn &&& 0x0FD5#16 →
    ∃ o, step s = .next { s with out := some o } ∧ step { s with flagsIn := f } = .next { s with flagsIn := f, out := some o } ∧
      o.flagsOut &&& ~~~0x0FD5#16 = 0#16

/-- R37: the 8-bit operations, DAA and DAS read only the low bytes of `a` and `b` and drive `result[15:8]` = 0. -/
def Obligations.NarrowOperationsUseLowBytes : Prop :=
  ∀ i ∈ [Instr.add8, .adc8, .sub8, .sbb8, .inc8, .dec8, .neg8, .cmp8, .daa, .das],
    ∀ (s : State) (a b : Word), a.setWidth 8 = s.a.setWidth 8 → b.setWidth 8 = s.b.setWidth 8 →
      ∃ o, exec i s = .next { s with out := some o } ∧
        exec i { s with a := a, b := b } = .next { s with a := a, b := b, out := some o } ∧ o.result.toNat < 256

/-- R65: `b` is ignored by INC, DEC, NEG, AAA, AAS, DAA and DAS. -/
def Obligations.OneOperandFormsIgnoreB : Prop :=
  ∀ i ∈ [Instr.inc8, .inc16, .dec8, .dec16, .neg8, .neg16, .aaa, .aas, .daa, .das],
    ∀ (s : State) (b : Word), ∃ o, exec i s = .next { s with out := some o } ∧
      exec i { s with b := b } = .next { s with b := b, out := some o }

/-- R33: the status bits of `flags_in` that each operation reads: none for ADD, SUB, NEG and CMP; CF for ADC, SBB, INC
and DEC; AF for AAA and AAS; AF and CF for DAA and DAS. What it does not read changes neither the result nor the status
flags, but for OF after DAA, whose parameter takes all six input status flags (R123; notes/assumptions/6.md). -/
def Obligations.UnreadInputFlagsDoNotMatter : Prop :=
  ∀ (s : State) (f : Word) (i : Instr),
    (i ∈ [Instr.add8, .add16, .sub8, .sub16, .neg8, .neg16, .cmp8, .cmp16] ∨
      (i ∈ [Instr.adc8, .adc16, .sbb8, .sbb16, .inc8, .inc16, .dec8, .dec16] ∧ f &&& 0x0001#16 = s.flagsIn &&& 0x0001#16) ∨
      (i ∈ [Instr.aaa, .aas] ∧ f &&& 0x0010#16 = s.flagsIn &&& 0x0010#16) ∨
      (i ∈ [Instr.daa, .das] ∧ f &&& 0x0011#16 = s.flagsIn &&& 0x0011#16)) →
    ∃ o o', exec i s = .next { s with out := some o } ∧
      exec i { s with flagsIn := f } = .next { s with flagsIn := f, out := some o' } ∧
      o.result = o'.result ∧ o.flagsOut &&& 0x00D5#16 = o'.flagsOut &&& 0x00D5#16 ∧
      (i ≠ .daa → o.flagsOut &&& 0x08D5#16 = o'.flagsOut &&& 0x08D5#16)

/-- R38: `res_we` is 1 for ADD, ADC, SUB, SBB, INC, DEC, NEG, AAA, AAS, DAA and DAS, and 0 for CMP and for a reserved
select word; the result bus of CMP carries the wrapped difference. -/
def Obligations.WriteEnableOfEachOperation : Prop :=
  (∀ i ∈ [Instr.add8, .add16, .adc8, .adc16, .sub8, .sub16, .sbb8, .sbb16, .inc8, .inc16, .dec8, .dec16, .neg8, .neg16,
      .aaa, .aas, .daa, .das],
    ∀ s : State, ∃ o, exec i s = .next { s with out := some o } ∧ o.resWe = true) ∧
  (∀ s : State, ∃ o, exec .cmp8 s = .next { s with out := some o } ∧ o.resWe = false ∧
    o.result = (s.a.setWidth 8 - s.b.setWidth 8).setWidth 16) ∧
  (∀ s : State, ∃ o, exec .cmp16 s = .next { s with out := some o } ∧ o.resWe = false ∧ o.result = s.a - s.b) ∧
  (∀ s : State, 12 ≤ s.op.toNat % 16 → ∃ o, step s = .next { s with out := some o } ∧ o.resWe = false)

/-! ### The Flags value -/

/-- R29: each operation of the set algebra, on the word layout: the empty set is 0, union OR, intersection AND,
difference `x & ~y`, equality word equality; a set made from a mapping has the mapping's members; and membership is the
bit under the flag's mask. -/
def Obligations.FlagAlgebraIsWordAlgebra : Prop :=
  Flags.empty.toWord = 0#16 ∧
  (∀ F G : Flags, (F.union G).toWord = F.toWord ||| G.toWord ∧ (F.inter G).toWord = F.toWord &&& G.toWord ∧
    (F.diff G).toWord = F.toWord &&& ~~~G.toWord ∧ (F = G ↔ F.toWord = G.toWord)) ∧
  (∀ (m : Flag → Bool) (f : Flag), (Flags.ofMap m).mem f = m f) ∧
  (∀ (F : Flags) (f : Flag), F.mem f = true ↔ F.toWord &&& f.mask = f.mask)

/-- R27, R28, R30: the mask constants of the layout; every set is the set of its word, and every word is the word of its
set but for the unnamed bits, which read as 0. -/
def Obligations.FlagWordLayout : Prop :=
  (Flag.CF.mask = 0x0001#16 ∧ Flag.PF.mask = 0x0004#16 ∧ Flag.AF.mask = 0x0010#16 ∧ Flag.ZF.mask = 0x0040#16 ∧
    Flag.SF.mask = 0x0080#16 ∧ Flag.TF.mask = 0x0100#16 ∧ Flag.IF.mask = 0x0200#16 ∧ Flag.DF.mask = 0x0400#16 ∧
    Flag.OF.mask = 0x0800#16) ∧
  (∀ F : Flags, Flags.ofWord F.toWord = F) ∧
  (∀ w : Word, (Flags.ofWord w).toWord = w &&& 0x0FD5#16)

/-! ### Two-operand arithmetic -/

/-- R101: ADD8 and ADD16. -/
def Obligations.AddAnswersSum : Prop :=
  decode 0x00#5 = .instr .add8 ∧ decode 0x10#5 = .instr .add16 ∧
  (∀ s : State, exec .add8 s = .next (answered s ((s.a.setWidth 8 + s.b.setWidth 8).setWidth 16) true
    (additiveStatus (s.a.setWidth 8) (s.b.setWidth 8) (s.a.setWidth 8 + s.b.setWidth 8)))) ∧
  (∀ s : State, exec .add16 s = .next (answered s (s.a + s.b) true (additiveStatus s.a s.b (s.a + s.b))))

/-- R102 with the fold of R100: ADC8 and ADC16, for whichever fold the block has. -/
def Obligations.AdcAnswersSumWithCarry : Prop :=
  decode 0x01#5 = .instr .adc8 ∧ decode 0x11#5 = .instr .adc16 ∧
  (∀ (s : State) (r : BitVec 8), r = BitVec.ofNat 8 (s.a.toNat % 256 + s.b.toNat % 256 + s.flagsIn[0].toNat) →
    exec .adc8 s = .next (answered s (r.setWidth 16) true
      (additiveStatus (s.a.setWidth 8) (foldedOp2 Config.carryInFold (s.b.setWidth 8) s.flagsIn[0]) r))) ∧
  (∀ (s : State) (r : Word), r = BitVec.ofNat 16 (s.a.toNat + s.b.toNat + s.flagsIn[0].toNat) →
    exec .adc16 s = .next (answered s r true (additiveStatus s.a (foldedOp2 Config.carryInFold s.b s.flagsIn[0]) r)))

/-- R103: SUB8 and SUB16. -/
def Obligations.SubAnswersDifference : Prop :=
  decode 0x02#5 = .instr .sub8 ∧ decode 0x12#5 = .instr .sub16 ∧
  (∀ s : State, exec .sub8 s = .next (answered s ((s.a.setWidth 8 - s.b.setWidth 8).setWidth 16) true
    (subtractiveStatus (s.a.setWidth 8) (s.b.setWidth 8) (s.a.setWidth 8 - s.b.setWidth 8)))) ∧
  (∀ s : State, exec .sub16 s = .next (answered s (s.a - s.b) true (subtractiveStatus s.a s.b (s.a - s.b))))

/-- R104 with the fold of R100: SBB8 and SBB16, for whichever fold the block has. -/
def Obligations.SbbAnswersDifferenceWithBorrow : Prop :=
  decode 0x03#5 = .instr .sbb8 ∧ decode 0x13#5 = .instr .sbb16 ∧
  (∀ (s : State) (r : BitVec 8),
    r = BitVec.ofNat 8 (s.a.toNat % 256 + 512 - s.b.toNat % 256 - s.flagsIn[0].toNat) →
    exec .sbb8 s = .next (answered s (r.setWidth 16) true
      (subtractiveStatus (s.a.setWidth 8) (foldedOp2 Config.carryInFold (s.b.setWidth 8) s.flagsIn[0]) r))) ∧
  (∀ (s : State) (r : Word), r = BitVec.ofNat 16 (s.a.toNat + 131072 - s.b.toNat - s.flagsIn[0].toNat) →
    exec .sbb16 s = .next (answered s r true (subtractiveStatus s.a (foldedOp2 Config.carryInFold s.b s.flagsIn[0]) r)))

/-- R94: CF, AF and OF after ADD are the carry out, the nibble carry and the signed overflow of exact addition. -/
def Obligations.AddFlagsAreExact : Prop :=
  (∀ s : State, ∃ o, exec .add8 s = .next { s with out := some o } ∧
    o.result.toNat = (s.a.toNat % 256 + s.b.toNat % 256) % 256 ∧
    CarryIs o (CarriesOut (s.a.setWidth 8) (s.b.setWidth 8) false) ∧
    AuxIs o (NibbleCarries (s.a.setWidth 8) (s.b.setWidth 8) false) ∧
    OverflowIs o (SumOverflows (s.a.setWidth 8) (s.b.setWidth 8) false)) ∧
  (∀ s : State, ∃ o, exec .add16 s = .next { s with out := some o } ∧
    o.result.toNat = (s.a.toNat + s.b.toNat) % 65536 ∧
    CarryIs o (CarriesOut s.a s.b false) ∧ AuxIs o (NibbleCarries s.a s.b false) ∧
    OverflowIs o (SumOverflows s.a s.b false))

/-- R94: CF, AF and OF after SUB and after CMP are the borrow, the nibble borrow and the signed overflow of exact
subtraction. -/
def Obligations.SubAndCmpFlagsAreExact : Prop :=
  (∀ i ∈ [Instr.sub8, .cmp8], ∀ s : State, ∃ o, exec i s = .next { s with out := some o } ∧
    o.result.toNat = (s.a.toNat % 256 + 256 - s.b.toNat % 256) % 256 ∧
    CarryIs o (BorrowsOut (s.a.setWidth 8) (s.b.setWidth 8) false) ∧
    AuxIs o (NibbleBorrows (s.a.setWidth 8) (s.b.setWidth 8) false) ∧
    OverflowIs o (DifferenceOverflows (s.a.setWidth 8) (s.b.setWidth 8) false)) ∧
  (∀ i ∈ [Instr.sub16, .cmp16], ∀ s : State, ∃ o, exec i s = .next { s with out := some o } ∧
    o.result.toNat = (s.a.toNat + 65536 - s.b.toNat) % 65536 ∧
    CarryIs o (BorrowsOut s.a s.b false) ∧ AuxIs o (NibbleBorrows s.a s.b false) ∧
    OverflowIs o (DifferenceOverflows s.a s.b false))

/-- R100's table, ADC: for whichever fold the block has, CF, AF and OF differ from the exact full adder in exactly the
listed cases. -/
def Obligations.AdcFlagsAgainstExactAdder : Prop :=
  (∀ s : State, ∃ o, exec .adc8 s = .next { s with out := some o } ∧
    SumFlagsUnderFold Config.carryInFold (s.a.setWidth 8) (s.b.setWidth 8) (s.flagsIn[0]) o) ∧
  (∀ s : State, ∃ o, exec .adc16 s = .next { s with out := some o } ∧
    SumFlagsUnderFold Config.carryInFold s.a s.b (s.flagsIn[0]) o)

/-- R100's table, SBB: for whichever fold the block has, CF, AF and OF differ from the exact subtractor in exactly the
listed cases. -/
def Obligations.SbbFlagsAgainstExactSubtractor : Prop :=
  (∀ s : State, ∃ o, exec .sbb8 s = .next { s with out := some o } ∧
    DifferenceFlagsUnderFold Config.carryInFold (s.a.setWidth 8) (s.b.setWidth 8) (s.flagsIn[0]) o) ∧
  (∀ s : State, ∃ o, exec .sbb16 s = .next { s with out := some o } ∧
    DifferenceFlagsUnderFold Config.carryInFold s.a s.b (s.flagsIn[0]) o)

/-- R100: with no carry-in, ADC is ADD and SBB is SUB, and the two folds agree; with one, the folds give the same
result. -/
def Obligations.FoldAgreesOnResult : Prop :=
  (∀ s : State, s.flagsIn[0] = false →
    exec .adc8 s = exec .add8 s ∧ exec .adc16 s = exec .add16 s ∧ exec .sbb8 s = exec .sub8 s ∧
    exec .sbb16 s = exec .sub16 s) ∧
  (∀ (n : Nat) (kind : FoldKind) (a b : BitVec n) (c : Bool),
    (fold .intoResult kind a b c).2 = (fold .intoOp2 kind a b c).2) ∧
  (∀ (n : Nat) (kind : FoldKind) (a b : BitVec n),
    fold .intoResult kind a b false = fold .intoOp2 kind a b false ∧ (fold .intoResult kind a b false).1 = b)

/-- R103: `(a -_n b) +_n b == a`, by two evaluations, whatever flags are presented to either. -/
def Obligations.SubThenAddGivesBack : Prop :=
  (∀ (s : State) (a b f g : Word), ∃ o₁ o₂, Evaluates s 0x02#5 a b f o₁ ∧ Evaluates s 0x00#5 o₁.result b g o₂ ∧
    o₂.result = a &&& 0x00FF#16) ∧
  (∀ (s : State) (a b f g : Word), ∃ o₁ o₂, Evaluates s 0x12#5 a b f o₁ ∧ Evaluates s 0x10#5 o₁.result b g o₂ ∧
    o₂.result = a)

/-! ### Increment, decrement, compare, negate -/

/-- R110: INC8 and INC16: ADD of 1, with CF from the input Flags. -/
def Obligations.IncAnswersSuccessor : Prop :=
  decode 0x04#5 = .instr .inc8 ∧ decode 0x14#5 = .instr .inc16 ∧
  (∀ s : State, exec .inc8 s = .next (answered s ((s.a.setWidth 8 + 1#8).setWidth 16) true
    ((additiveStatus (s.a.setWidth 8) 1#8 (s.a.setWidth 8 + 1#8) &&& 0x08D4#16) ||| (s.flagsIn &&& 0x0001#16)))) ∧
  (∀ s : State, exec .inc16 s = .next (answered s (s.a + 1#16) true
    ((additiveStatus s.a 1#16 (s.a + 1#16) &&& 0x08D4#16) ||| (s.flagsIn &&& 0x0001#16))))

/-- R111: DEC8 and DEC16: SUB of 1, with CF from the input Flags. -/
def Obligations.DecAnswersPredecessor : Prop :=
  decode 0x05#5 = .instr .dec8 ∧ decode 0x15#5 = .instr .dec16 ∧
  (∀ s : State, exec .dec8 s = .next (answered s ((s.a.setWidth 8 - 1#8).setWidth 16) true
    ((subtractiveStatus (s.a.setWidth 8) 1#8 (s.a.setWidth 8 - 1#8) &&& 0x08D4#16) ||| (s.flagsIn &&& 0x0001#16)))) ∧
  (∀ s : State, exec .dec16 s = .next (answered s (s.a - 1#16) true
    ((subtractiveStatus s.a 1#16 (s.a - 1#16) &&& 0x08D4#16) ||| (s.flagsIn &&& 0x0001#16))))

/-- R112: CMP8 and CMP16: the flags of SUB, with no write-back; the difference stands on the result bus. -/
def Obligations.CmpAnswersFlagsOnly : Prop :=
  decode 0x07#5 = .instr .cmp8 ∧ decode 0x17#5 = .instr .cmp16 ∧
  (∀ s : State, exec .cmp8 s = .next (answered s ((s.a.setWidth 8 - s.b.setWidth 8).setWidth 16) false
    (subtractiveStatus (s.a.setWidth 8) (s.b.setWidth 8) (s.a.setWidth 8 - s.b.setWidth 8)))) ∧
  (∀ s : State, exec .cmp16 s = .next (answered s (s.a - s.b) false (subtractiveStatus s.a s.b (s.a - s.b))))

/-- R113: NEG8 and NEG16: 0 less the operand, with the operand as op2 of the derivation. -/
def Obligations.NegAnswersNegation : Prop :=
  decode 0x06#5 = .instr .neg8 ∧ decode 0x16#5 = .instr .neg16 ∧
  (∀ s : State, exec .neg8 s = .next (answered s ((-(s.a.setWidth 8)).setWidth 16) true
    (subtractiveStatus 0#8 (s.a.setWidth 8) (-(s.a.setWidth 8))))) ∧
  (∀ s : State, exec .neg16 s = .next (answered s (-s.a) true (subtractiveStatus 0#16 s.a (-s.a))))

/-- R110, R111, corner cases: INC and DEC copy CF; AF is set exactly at a low nibble of 0xF (INC) or 0 (DEC), OF
exactly at the largest (INC) or smallest (DEC) signed value. -/
def Obligations.IncDecFlagCorners : Prop :=
  (∀ s : State, ∃ o, exec .inc8 s = .next { s with out := some o } ∧ CarryIs o (s.flagsIn[0] = true) ∧
    AuxIs o (s.a.toNat % 16 = 15) ∧ OverflowIs o (s.a.toNat % 256 = 0x7F)) ∧
  (∀ s : State, ∃ o, exec .inc16 s = .next { s with out := some o } ∧ CarryIs o (s.flagsIn[0] = true) ∧
    AuxIs o (s.a.toNat % 16 = 15) ∧ OverflowIs o (s.a.toNat = 0x7FFF)) ∧
  (∀ s : State, ∃ o, exec .dec8 s = .next { s with out := some o } ∧ CarryIs o (s.flagsIn[0] = true) ∧
    AuxIs o (s.a.toNat % 16 = 0) ∧ OverflowIs o (s.a.toNat % 256 = 0x80)) ∧
  (∀ s : State, ∃ o, exec .dec16 s = .next { s with out := some o } ∧ CarryIs o (s.flagsIn[0] = true) ∧
    AuxIs o (s.a.toNat % 16 = 0) ∧ OverflowIs o (s.a.toNat = 0x8000))

/-- R113: after NEG, CF is set unless the operand is 0, AF unless its low nibble is 0, and OF exactly for the smallest
signed value. -/
def Obligations.NegFlagCorners : Prop :=
  (∀ s : State, ∃ o, exec .neg8 s = .next { s with out := some o } ∧ CarryIs o (s.a.toNat % 256 ≠ 0) ∧
    AuxIs o (s.a.toNat % 16 ≠ 0) ∧ OverflowIs o (s.a.toNat % 256 = 0x80)) ∧
  (∀ s : State, ∃ o, exec .neg16 s = .next { s with out := some o } ∧ CarryIs o (s.a.toNat ≠ 0) ∧
    AuxIs o (s.a.toNat % 16 ≠ 0) ∧ OverflowIs o (s.a.toNat = 0x8000))

/-- R71: NEG is SUB(0, a), and CMP is SUB with the numeric difference discarded: the same outputs, but for `res_we`. -/
def Obligations.NegAndCmpAreSubtractions : Prop :=
  (∀ s : State, ∃ o, exec .sub8 { s with a := 0#16, b := s.a } = .next { s with a := 0#16, b := s.a, out := some o } ∧
    exec .neg8 s = .next { s with out := some o }) ∧
  (∀ s : State, ∃ o, exec .sub16 { s with a := 0#16, b := s.a } = .next { s with a := 0#16, b := s.a, out := some o } ∧
    exec .neg16 s = .next { s with out := some o }) ∧
  (∀ s : State, ∃ o, exec .sub8 s = .next { s with out := some o } ∧
    exec .cmp8 s = .next { s with out := some { o with resWe := false } }) ∧
  (∀ s : State, ∃ o, exec .sub16 s = .next { s with out := some o } ∧
    exec .cmp16 s = .next { s with out := some { o with resWe := false } })

/-- R112: comparing a value with itself gives ZF and PF alone, for every value (C3); an unsigned `a < b` gives CF. -/
def Obligations.CmpOfEqualsGivesZeroParity : Prop :=
  (∀ s : State, s.a.setWidth 8 = s.b.setWidth 8 → exec .cmp8 s = .next (answered s 0#16 false 0x0044#16)) ∧
  (∀ s : State, s.a = s.b → exec .cmp16 s = .next (answered s 0#16 false 0x0044#16)) ∧
  (∀ s : State, ∃ o, exec .cmp8 s = .next { s with out := some o } ∧ CarryIs o (s.a.toNat % 256 < s.b.toNat % 256)) ∧
  (∀ s : State, ∃ o, exec .cmp16 s = .next { s with out := some o } ∧ CarryIs o (s.a.toNat < s.b.toNat))

/-! ### BCD adjust -/

/-- R121 with the adjustment of R120: AAA, for whichever adjustment the block has. -/
def Obligations.AaaAnswersAdjusted : Prop :=
  decode 0x18#5 = .instr .aaa ∧ decode 0x08#5 = .instr .aaa ∧
  ∀ s : State, exec .aaa s =
    .next (if lowFires s.a.toNat s.flagsIn
      then answered s (BitVec.ofNat 16 (adjustedUp Config.aaxAdjust s.a.toNat) &&& 0xFF0F#16) true 0x0011#16
      else answered s (s.a &&& 0xFF0F#16) true 0#16)

/-- R122 with the adjustment of R120: AAS, for whichever adjustment the block has. -/
def Obligations.AasAnswersAdjusted : Prop :=
  decode 0x19#5 = .instr .aas ∧ decode 0x09#5 = .instr .aas ∧
  ∀ s : State, exec .aas s =
    .next (if lowFires s.a.toNat s.flagsIn
      then answered s (BitVec.ofNat 16 (adjustedDown Config.aaxAdjust s.a.toNat) &&& 0xFF0F#16) true 0x0011#16
      else answered s (s.a &&& 0xFF0F#16) true 0#16)

/-- R124 with `P_DAA_OF` of R123: DAA. OF is the block's own function of the accumulator and the input Flags, whatever
function that is; of the input Flags it sees the status flags, because TF, IF and DF have no effect on any status bit
(R148, C6; notes/assumptions/6.md). -/
def Obligations.DaaAnswersAdjusted : Prop :=
  decode 0x0A#5 = .instr .daa ∧ decode 0x1A#5 = .instr .daa ∧
  ∀ (s : State) (t : Byte),
    t.toNat = (s.a.toNat % 256 + (if lowFires s.a.toNat s.flagsIn then 0x06 else 0) +
      (if highFires (s.a.toNat % 256) s.flagsIn then 0x60 else 0)) % 256 →
    exec .daa s = .next (answered s (t.setWidth 16) true (statusWord
      (cf := highFires (s.a.toNat % 256) s.flagsIn) (pf := evenParity t) (af := lowFires s.a.toNat s.flagsIn)
      (zf := decide (t.toNat = 0)) (sf := t[7])
      (of := Config.daaOf (s.a.setWidth 8) (Flags.ofWord (s.flagsIn &&& 0x08D5#16)))))

/-- R125: DAS, with OF clear. -/
def Obligations.DasAnswersAdjusted : Prop :=
  decode 0x0B#5 = .instr .das ∧ decode 0x1B#5 = .instr .das ∧
  ∀ (s : State) (t : Byte),
    t.toNat = (s.a.toNat % 256 + 512 - (if lowFires s.a.toNat s.flagsIn then 0x06 else 0) -
      (if highFires (s.a.toNat % 256) s.flagsIn then 0x60 else 0)) % 256 →
    exec .das s = .next (answered s (t.setWidth 16) true (statusWord
      (cf := highFires (s.a.toNat % 256) s.flagsIn) (pf := evenParity t) (af := lowFires s.a.toNat s.flagsIn)
      (zf := decide (t.toNat = 0)) (sf := t[7]) (of := false)))

/-- R120: the two values of `P_AAX_ADJUST` give AAA and AAS the same flags and the same low byte, and the same high byte
too, but in one case each: AAA adjusting with a low byte of 0xFA or more, where `WORD` is one greater in the high byte;
and AAS adjusting with a low byte below 6, where it is one smaller. -/
def Obligations.AaxAdjustChoicesDiffer : Prop :=
  ∀ (acc : Word) (F : Flags),
    (entryAaa .split acc F).status = (entryAaa .word acc F).status ∧
    (entryAas .split acc F).status = (entryAas .word acc F).status ∧
    (entryAaa .word acc F).value =
      (if 0xFA ≤ acc.toNat % 256 then (entryAaa .split acc F).value + 0x0100#16 else (entryAaa .split acc F).value) ∧
    (entryAas .word acc F).value =
      (if F.AF = true ∧ acc.toNat % 256 < 6 then (entryAas .split acc F).value - 0x0100#16 else (entryAas .split acc F).value)

/-- R124, L2.15: with AF and CF clear on input, both digits of a DAA result are at most 9, but for x in 0x9A..0x9F,
which give 0xA0..0xA5 with CF clear. -/
def Obligations.DaaGivesPackedBcd : Prop :=
  ∀ s : State, s.flagsIn &&& 0x0011#16 = 0#16 →
    ∃ o, exec .daa s = .next { s with out := some o } ∧
      (if 0x9A ≤ s.a.toNat % 256 ∧ s.a.toNat % 256 ≤ 0x9F
        then o.result.toNat = s.a.toNat % 256 + 6 ∧ CarryIs o False else Packed o.result.toNat)

/-- R125, L2.15: with AF and CF clear on input, both digits of a DAS result are at most 9; x in 0x9A..0x9F gives
0x94..0x99. -/
def Obligations.DasGivesPackedBcd : Prop :=
  ∀ s : State, s.flagsIn &&& 0x0011#16 = 0#16 →
    ∃ o, exec .das s = .next { s with out := some o } ∧ Packed o.result.toNat ∧
      (0x9A ≤ s.a.toNat % 256 → s.a.toNat % 256 ≤ 0x9F → o.result.toNat = s.a.toNat % 256 - 6)

/-- R165, R166: packed decimal addition with a carry-in, digit pair by digit pair: ADC8 and then DAA, with the flags of
the first presented to the second, add two packed BCD bytes and the carry, and CF is the decimal carry; this holds for
either fold. The exception is a binary sum in 0x9A..0x9F, which DAA's threshold misses (R124). -/
def Obligations.PackedDecimalAddition : Prop :=
  ∀ (s : State) (x y f : Word), x.toNat < 256 → y.toNat < 256 → Packed x.toNat → Packed y.toNat →
    ∃ o₁ o₂, Evaluates s 0x01#5 x y f o₁ ∧ Evaluates s 0x0A#5 o₁.result 0#16 o₁.flagsOut o₂ ∧
      (if 0x9A ≤ x.toNat + y.toNat + (f[0]).toNat ∧ x.toNat + y.toNat + (f[0]).toNat ≤ 0x9F
        then o₂.result.toNat = x.toNat + y.toNat + (f[0]).toNat + 6 ∧ CarryIs o₂ False
        else Packed o₂.result.toNat ∧
          unpack o₂.result.toNat = (unpack x.toNat + unpack y.toNat + (f[0]).toNat) % 100 ∧
          CarryIs o₂ (100 ≤ unpack x.toNat + unpack y.toNat + (f[0]).toNat))

/-- R165, R166: packed decimal subtraction with a borrow-in: SBB8 and then DAS, with the flags of the first presented to
the second, subtract two packed BCD bytes and the borrow, and CF is the decimal borrow; this holds for either fold. -/
def Obligations.PackedDecimalSubtraction : Prop :=
  ∀ (s : State) (x y f : Word), x.toNat < 256 → y.toNat < 256 → Packed x.toNat → Packed y.toNat →
    ∃ o₁ o₂, Evaluates s 0x03#5 x y f o₁ ∧ Evaluates s 0x0B#5 o₁.result 0#16 o₁.flagsOut o₂ ∧
      Packed o₂.result.toNat ∧
      unpack o₂.result.toNat = (unpack x.toNat + 200 - unpack y.toNat - (f[0]).toNat) % 100 ∧
      CarryIs o₂ (unpack x.toNat < unpack y.toNat + (f[0]).toNat)

/-- R165, R166: adding two decimal digits, plain or as ASCII characters, by ADD8 and then AAA with the high byte `h` in
the accumulator: the low byte is the sum's digit, the high byte takes its carry, CF and AF say whether there was one; for
either adjustment of R120. -/
def Obligations.UnpackedDecimalAddition : Prop :=
  ∀ (s : State) (h : Byte) (d e p q : Nat) (f : Word), d ≤ 9 → e ≤ 9 → p ∈ [0x00, 0x30] → q ∈ [0x00, 0x30] →
    ∃ o₁ o₂, Evaluates s 0x00#5 (BitVec.ofNat 16 (p + d)) (BitVec.ofNat 16 (q + e)) f o₁ ∧
      Evaluates s 0x18#5 (h ++ o₁.result.setWidth 8) 0#16 o₁.flagsOut o₂ ∧
      o₂.result.toNat = (h.toNat + (d + e) / 10) % 256 * 256 + (d + e) % 10 ∧
      CarryIs o₂ (10 ≤ d + e) ∧ AuxIs o₂ (10 ≤ d + e)

/-- R165, R166: subtracting two decimal digits, plain or as ASCII characters, by SUB8 and then AAS: the low byte is the
difference's digit, the high byte gives its borrow, CF and AF say whether there was one; for either adjustment of R120. -/
def Obligations.UnpackedDecimalSubtraction : Prop :=
  ∀ (s : State) (h : Byte) (d e p q : Nat) (f : Word), d ≤ 9 → e ≤ 9 → p ∈ [0x00, 0x30] → q ∈ [0x00, 0x30] →
    ∃ o₁ o₂, Evaluates s 0x02#5 (BitVec.ofNat 16 (p + d)) (BitVec.ofNat 16 (q + e)) f o₁ ∧
      Evaluates s 0x19#5 (h ++ o₁.result.setWidth 8) 0#16 o₁.flagsOut o₂ ∧
      o₂.result.toNat = (h.toNat + (if d < e then 255 else 0)) % 256 * 256 + (d + 10 - e) % 10 ∧
      CarryIs o₂ (d < e) ∧ AuxIs o₂ (d < e)
end

