-- ==== Sys2Proof/Laws/Flags.lean ====
section
/-! SUPPORT. The small lemmas of the Flags value: the members of each set operation (spec/10_state.md R29), and the
bits of the flag word (R27, R28). -/

namespace Sys2Proof

@[simp] theorem Flags.mem_ofMap (m : Flag → Bool) (f : Flag) : (Flags.ofMap m).mem f = m f := by cases f <;> rfl

@[simp] theorem Flags.mem_empty (f : Flag) : Flags.empty.mem f = false := by cases f <;> rfl

@[simp] theorem Flags.mem_union (F G : Flags) (f : Flag) : (F.union G).mem f = (F.mem f || G.mem f) := by
  simp [Flags.union]

@[simp] theorem Flags.mem_inter (F G : Flags) (f : Flag) : (F.inter G).mem f = (F.mem f && G.mem f) := by
  simp [Flags.inter]

@[simp] theorem Flags.mem_diff (F G : Flags) (f : Flag) : (F.diff G).mem f = (F.mem f && !G.mem f) := by
  simp [Flags.diff]

@[simp] theorem Flags.mem_when (f g : Flag) (c : Bool) : (Flags.when f c).mem g = (c && decide (g = f)) := by
  simp [Flags.when]

@[simp] theorem Flags.mem_ofWord (w : Word) (f : Flag) : (Flags.ofWord w).mem f = w.getLsbD f.position := by
  simp [Flags.ofWord]

/-- Two Flags values with the same members are equal. -/
theorem Flags.eq_of_mem (F G : Flags) (h : ∀ f, F.mem f = G.mem f) : F = G := by
  obtain ⟨c1, p1, a1, z1, s1, o1, t1, i1, d1⟩ := F
  obtain ⟨c2, p2, a2, z2, s2, o2, t2, i2, d2⟩ := G
  have hc := h .CF; have hp := h .PF; have ha := h .AF; have hz := h .ZF; have hs := h .SF
  have ho := h .OF; have ht := h .TF; have hi := h .IF; have hd := h .DF
  simp only [Flags.mem] at hc hp ha hz hs ho ht hi hd
  simp [hc, hp, ha, hz, hs, ho, ht, hi, hd]

@[simp] theorem Flags.union_CF (F G : Flags) : (F.union G).CF = (F.CF || G.CF) := rfl
@[simp] theorem Flags.union_PF (F G : Flags) : (F.union G).PF = (F.PF || G.PF) := rfl
@[simp] theorem Flags.union_AF (F G : Flags) : (F.union G).AF = (F.AF || G.AF) := rfl
@[simp] theorem Flags.union_ZF (F G : Flags) : (F.union G).ZF = (F.ZF || G.ZF) := rfl
@[simp] theorem Flags.union_SF (F G : Flags) : (F.union G).SF = (F.SF || G.SF) := rfl
@[simp] theorem Flags.union_OF (F G : Flags) : (F.union G).OF = (F.OF || G.OF) := rfl
@[simp] theorem Flags.union_TF (F G : Flags) : (F.union G).TF = (F.TF || G.TF) := rfl
@[simp] theorem Flags.union_IF (F G : Flags) : (F.union G).IF = (F.IF || G.IF) := rfl
@[simp] theorem Flags.union_DF (F G : Flags) : (F.union G).DF = (F.DF || G.DF) := rfl

@[simp] theorem Flags.inter_CF (F G : Flags) : (F.inter G).CF = (F.CF && G.CF) := rfl
@[simp] theorem Flags.inter_PF (F G : Flags) : (F.inter G).PF = (F.PF && G.PF) := rfl
@[simp] theorem Flags.inter_AF (F G : Flags) : (F.inter G).AF = (F.AF && G.AF) := rfl
@[simp] theorem Flags.inter_ZF (F G : Flags) : (F.inter G).ZF = (F.ZF && G.ZF) := rfl
@[simp] theorem Flags.inter_SF (F G : Flags) : (F.inter G).SF = (F.SF && G.SF) := rfl
@[simp] theorem Flags.inter_OF (F G : Flags) : (F.inter G).OF = (F.OF && G.OF) := rfl
@[simp] theorem Flags.inter_TF (F G : Flags) : (F.inter G).TF = (F.TF && G.TF) := rfl
@[simp] theorem Flags.inter_IF (F G : Flags) : (F.inter G).IF = (F.IF && G.IF) := rfl
@[simp] theorem Flags.inter_DF (F G : Flags) : (F.inter G).DF = (F.DF && G.DF) := rfl

@[simp] theorem Flags.diff_CF (F G : Flags) : (F.diff G).CF = (F.CF && !G.CF) := rfl
@[simp] theorem Flags.diff_PF (F G : Flags) : (F.diff G).PF = (F.PF && !G.PF) := rfl
@[simp] theorem Flags.diff_AF (F G : Flags) : (F.diff G).AF = (F.AF && !G.AF) := rfl
@[simp] theorem Flags.diff_ZF (F G : Flags) : (F.diff G).ZF = (F.ZF && !G.ZF) := rfl
@[simp] theorem Flags.diff_SF (F G : Flags) : (F.diff G).SF = (F.SF && !G.SF) := rfl
@[simp] theorem Flags.diff_OF (F G : Flags) : (F.diff G).OF = (F.OF && !G.OF) := rfl
@[simp] theorem Flags.diff_TF (F G : Flags) : (F.diff G).TF = (F.TF && !G.TF) := rfl
@[simp] theorem Flags.diff_IF (F G : Flags) : (F.diff G).IF = (F.IF && !G.IF) := rfl
@[simp] theorem Flags.diff_DF (F G : Flags) : (F.diff G).DF = (F.DF && !G.DF) := rfl

@[simp] theorem Flags.when_CF (f : Flag) (c : Bool) : (Flags.when f c).CF = (c && decide (Flag.CF = f)) := rfl
@[simp] theorem Flags.when_PF (f : Flag) (c : Bool) : (Flags.when f c).PF = (c && decide (Flag.PF = f)) := rfl
@[simp] theorem Flags.when_AF (f : Flag) (c : Bool) : (Flags.when f c).AF = (c && decide (Flag.AF = f)) := rfl
@[simp] theorem Flags.when_ZF (f : Flag) (c : Bool) : (Flags.when f c).ZF = (c && decide (Flag.ZF = f)) := rfl
@[simp] theorem Flags.when_SF (f : Flag) (c : Bool) : (Flags.when f c).SF = (c && decide (Flag.SF = f)) := rfl
@[simp] theorem Flags.when_OF (f : Flag) (c : Bool) : (Flags.when f c).OF = (c && decide (Flag.OF = f)) := rfl
@[simp] theorem Flags.when_TF (f : Flag) (c : Bool) : (Flags.when f c).TF = (c && decide (Flag.TF = f)) := rfl
@[simp] theorem Flags.when_IF (f : Flag) (c : Bool) : (Flags.when f c).IF = (c && decide (Flag.IF = f)) := rfl
@[simp] theorem Flags.when_DF (f : Flag) (c : Bool) : (Flags.when f c).DF = (c && decide (Flag.DF = f)) := rfl

@[simp] theorem Flags.ofWord_CF (w : Word) : (Flags.ofWord w).CF = w[0] := rfl
@[simp] theorem Flags.ofWord_PF (w : Word) : (Flags.ofWord w).PF = w[2] := rfl
@[simp] theorem Flags.ofWord_AF (w : Word) : (Flags.ofWord w).AF = w[4] := rfl
@[simp] theorem Flags.ofWord_ZF (w : Word) : (Flags.ofWord w).ZF = w[6] := rfl
@[simp] theorem Flags.ofWord_SF (w : Word) : (Flags.ofWord w).SF = w[7] := rfl
@[simp] theorem Flags.ofWord_OF (w : Word) : (Flags.ofWord w).OF = w[11] := rfl
@[simp] theorem Flags.ofWord_TF (w : Word) : (Flags.ofWord w).TF = w[8] := rfl
@[simp] theorem Flags.ofWord_IF (w : Word) : (Flags.ofWord w).IF = w[9] := rfl
@[simp] theorem Flags.ofWord_DF (w : Word) : (Flags.ofWord w).DF = w[10] := rfl

@[simp] theorem Flags.status_CF (F : Flags) : F.status.CF = F.CF := rfl
@[simp] theorem Flags.status_PF (F : Flags) : F.status.PF = F.PF := rfl
@[simp] theorem Flags.status_AF (F : Flags) : F.status.AF = F.AF := rfl
@[simp] theorem Flags.status_ZF (F : Flags) : F.status.ZF = F.ZF := rfl
@[simp] theorem Flags.status_SF (F : Flags) : F.status.SF = F.SF := rfl
@[simp] theorem Flags.status_OF (F : Flags) : F.status.OF = F.OF := rfl
@[simp] theorem Flags.status_TF (F : Flags) : F.status.TF = false := rfl
@[simp] theorem Flags.status_IF (F : Flags) : F.status.IF = false := rfl
@[simp] theorem Flags.status_DF (F : Flags) : F.status.DF = false := rfl

/-- The status flags of a flag word are the flags of its bits under `STATUS_MASK` (R27). -/
theorem Flags.status_ofWord (w : Word) : (Flags.ofWord w).status = Flags.ofWord (w &&& statusMask) := by
  simp [Flags.status, Flags.ofWord, Flags.ofMap, Flag.position, statusMask]

/-- Two flag words with the same bits under `STATUS_MASK` have the same status flags, whatever TF, IF and DF are. -/
theorem Flags.status_congr {v w : Word} (h : v &&& statusMask = w &&& statusMask) :
    (Flags.ofWord v).status = (Flags.ofWord w).status := by
  rw [Flags.status_ofWord, Flags.status_ofWord, h]

/-- A mask constant has the one bit of its flag (R27). -/
@[simp] theorem Flag.mask_getLsbD (f : Flag) (k : Nat) : f.mask.getLsbD k = decide (k = f.position) := by
  have hp : f.position < 16 := by cases f <;> decide
  rw [Flag.mask, BitVec.getLsbD_shiftLeft, BitVec.getLsbD_one]
  by_cases hk : k = f.position
  · simp [hk, hp]
  · simp [hk]; omega

/-- The bit of one flag in the flag word. -/
theorem Flags.bit_getLsbD (F : Flags) (f : Flag) (k : Nat) :
    (F.bit f).getLsbD k = (F.mem f && decide (k = f.position)) := by
  cases h : F.mem f <;> simp [Flags.bit, h]

/-- Every bit of the flag word: a named position holds its flag, and every other bit is 0 (R27, R28). -/
theorem Flags.toWord_getLsbD (F : Flags) (k : Nat) :
    F.toWord.getLsbD k =
      ((F.CF && decide (k = 0)) || (F.PF && decide (k = 2)) || (F.AF && decide (k = 4)) || (F.ZF && decide (k = 6)) ||
        (F.SF && decide (k = 7)) || (F.OF && decide (k = 11)) || (F.TF && decide (k = 8)) ||
        (F.IF && decide (k = 9)) || (F.DF && decide (k = 10))) := by
  simp only [Flags.toWord, BitVec.getLsbD_or, Flags.bit_getLsbD]
  rfl

@[simp] theorem Flags.toWord_CF (F : Flags) : F.toWord[0] = F.CF := by
  rw [← BitVec.getLsbD_eq_getElem, Flags.toWord_getLsbD]; simp
@[simp] theorem Flags.toWord_PF (F : Flags) : F.toWord[2] = F.PF := by
  rw [← BitVec.getLsbD_eq_getElem, Flags.toWord_getLsbD]; simp
@[simp] theorem Flags.toWord_AF (F : Flags) : F.toWord[4] = F.AF := by
  rw [← BitVec.getLsbD_eq_getElem, Flags.toWord_getLsbD]; simp
@[simp] theorem Flags.toWord_ZF (F : Flags) : F.toWord[6] = F.ZF := by
  rw [← BitVec.getLsbD_eq_getElem, Flags.toWord_getLsbD]; simp
@[simp] theorem Flags.toWord_SF (F : Flags) : F.toWord[7] = F.SF := by
  rw [← BitVec.getLsbD_eq_getElem, Flags.toWord_getLsbD]; simp
@[simp] theorem Flags.toWord_TF (F : Flags) : F.toWord[8] = F.TF := by
  rw [← BitVec.getLsbD_eq_getElem, Flags.toWord_getLsbD]; simp
@[simp] theorem Flags.toWord_IF (F : Flags) : F.toWord[9] = F.IF := by
  rw [← BitVec.getLsbD_eq_getElem, Flags.toWord_getLsbD]; simp
@[simp] theorem Flags.toWord_DF (F : Flags) : F.toWord[10] = F.DF := by
  rw [← BitVec.getLsbD_eq_getElem, Flags.toWord_getLsbD]; simp
@[simp] theorem Flags.toWord_OF (F : Flags) : F.toWord[11] = F.OF := by
  rw [← BitVec.getLsbD_eq_getElem, Flags.toWord_getLsbD]; simp

end Sys2Proof
end

