-- ==== Sys2Proof/Laws/State.lean ====
section
/-! SUPPORT. One lemma per field per update of State, each true by rfl. -/

namespace Sys2Proof.Machine

@[simp] theorem State.drive_op (s : State) (o : Outputs) : (s.drive o).op = s.op := rfl
@[simp] theorem State.drive_a (s : State) (o : Outputs) : (s.drive o).a = s.a := rfl
@[simp] theorem State.drive_b (s : State) (o : Outputs) : (s.drive o).b = s.b := rfl
@[simp] theorem State.drive_flagsIn (s : State) (o : Outputs) : (s.drive o).flagsIn = s.flagsIn := rfl
@[simp] theorem State.drive_out (s : State) (o : Outputs) : (s.drive o).out = some o := rfl
@[simp] theorem State.drive_drive (s : State) (o o' : Outputs) : (s.drive o).drive o' = s.drive o' := rfl

@[simp] theorem State.present_op (s : State) (op : Select) (a b f : Word) : (s.present op a b f).op = op := rfl
@[simp] theorem State.present_a (s : State) (op : Select) (a b f : Word) : (s.present op a b f).a = a := rfl
@[simp] theorem State.present_b (s : State) (op : Select) (a b f : Word) : (s.present op a b f).b = b := rfl
@[simp] theorem State.present_flagsIn (s : State) (op : Select) (a b f : Word) :
    (s.present op a b f).flagsIn = f := rfl
@[simp] theorem State.present_out (s : State) (op : Select) (a b f : Word) : (s.present op a b f).out = s.out := rfl

@[simp] theorem State.presentCall_op (s : State) (c : Call) : (s.presentCall c).op = encode c.instr := rfl
@[simp] theorem State.presentCall_a (s : State) (c : Call) : (s.presentCall c).a = BitVec.ofNat 16 c.a := rfl
@[simp] theorem State.presentCall_b (s : State) (c : Call) :
    (s.presentCall c).b = BitVec.ofNat 16 (c.b.getD 0) := rfl
@[simp] theorem State.presentCall_flagsIn (s : State) (c : Call) : (s.presentCall c).flagsIn = c.flags.toWord := rfl
@[simp] theorem State.presentCall_out (s : State) (c : Call) : (s.presentCall c).out = s.out := rfl

@[simp] theorem State.reset_out : State.reset.out = none := rfl
@[simp] theorem State.reset_flagsIn : State.reset.flagsIn = Config.integratorFlagsReset := rfl

end Sys2Proof.Machine
end

