-- ==== Sys2Proof/Laws/Step.lean ====
section
/-! SUPPORT. What one step can do, said once: every instruction completes with the answer of its entry point, and a
reserved select word with the outputs of spec/30_encoding.md R66. -/

namespace Sys2Proof.Machine

/-- What the entry point of each instruction returns for the input ports of `s`. -/
def answerOf (i : Instr) (s : State) : Answer :=
  match i with
  | .add8 => entryAdd (s.opA 8) (s.opB 8)
  | .add16 => entryAdd (s.opA 16) (s.opB 16)
  | .adc8 => entryAdc Config.carryInFold (s.opA 8) (s.opB 8) s.inputFlags
  | .adc16 => entryAdc Config.carryInFold (s.opA 16) (s.opB 16) s.inputFlags
  | .sub8 => entrySub (s.opA 8) (s.opB 8)
  | .sub16 => entrySub (s.opA 16) (s.opB 16)
  | .sbb8 => entrySbb Config.carryInFold (s.opA 8) (s.opB 8) s.inputFlags
  | .sbb16 => entrySbb Config.carryInFold (s.opA 16) (s.opB 16) s.inputFlags
  | .inc8 => entryInc (s.opA 8) s.inputFlags
  | .inc16 => entryInc (s.opA 16) s.inputFlags
  | .dec8 => entryDec (s.opA 8) s.inputFlags
  | .dec16 => entryDec (s.opA 16) s.inputFlags
  | .neg8 => entryNeg (s.opA 8)
  | .neg16 => entryNeg (s.opA 16)
  | .cmp8 => entryCmp (s.opA 8) (s.opB 8)
  | .cmp16 => entryCmp (s.opA 16) (s.opB 16)
  | .aaa => entryAaa Config.aaxAdjust (s.opA 16) s.inputFlags
  | .aas => entryAas Config.aaxAdjust (s.opA 16) s.inputFlags
  | .daa => entryDaa Config.daaOf (s.opA 8) s.inputFlags
  | .das => entryDas (s.opA 8) s.inputFlags

/-- Every instruction completes, with the answer of its entry point. -/
theorem exec_eq_complete (i : Instr) (s : State) : exec i s = s.complete (answerOf i s) := by cases i <;> rfl

/-- Every instruction answers a next state, which differs from `s` in the output ports alone. -/
theorem exec_eq_next (i : Instr) (s : State) :
    exec i s = .next (s.drive (outputsOf s.flagsIn (answerOf i s))) := exec_eq_complete i s

/-- A step on a legal select word completes with the answer of the entry point it stands for. -/
theorem step_of_instr {s : State} {i : Instr} (h : decode s.op = .instr i) :
    step s = .next (s.drive (outputsOf s.flagsIn (answerOf i s))) := by
  simp only [step, h, exec_eq_next]

/-- A step on a reserved select word. -/
theorem step_of_reserved {s : State} {op : Select} (h : decode s.op = .reserved op) :
    step s = .next (s.drive (reservedOutputs s.flagsIn)) := by
  simp only [step, h, State.completeReserved]

/-- What a step can do: it completes an instruction or a reserved select word, and there is no third case. -/
theorem step_cases (s : State) :
    (∃ i, decode s.op = .instr i ∧ step s = .next (s.drive (outputsOf s.flagsIn (answerOf i s)))) ∨
    (∃ op, decode s.op = .reserved op ∧ step s = .next (s.drive (reservedOutputs s.flagsIn))) := by
  cases h : decode s.op with
  | instr i => exact .inl ⟨i, rfl, step_of_instr h⟩
  | reserved op => exact .inr ⟨op, rfl, step_of_reserved h⟩

/-- A reserved decoding is of a function code 12 to 15 and no other (R66). -/
theorem decode_reserved_iff (op : Select) : (∃ op', decode op = .reserved op') ↔ 12 ≤ op.toNat % 16 := by
  have h : ∀ op : Select, (decode op = .reserved op ∧ 12 ≤ op.toNat % 16) ∨
      ((decode op).toInstr?.isSome = true ∧ ¬ 12 ≤ op.toNat % 16) := by decide
  rcases h op with ⟨h1, h2⟩ | ⟨h1, h2⟩
  · exact ⟨fun _ => h2, fun _ => ⟨op, h1⟩⟩
  · refine ⟨fun ⟨op', h⟩ => ?_, fun h => absurd h h2⟩
    simp [h, Decoded.toInstr?] at h1

/-- No entry point returns TF, IF or DF (R31). -/
theorem answerOf_status_control (i : Instr) (s : State) :
    (answerOf i s).status.TF = false ∧ (answerOf i s).status.IF = false ∧ (answerOf i s).status.DF = false := by
  cases i <;> simp [answerOf, entryAdd, entryAdc, entrySub, entrySbb, entryInc, entryDec, entryCmp, entryNeg,
    entryAaa, entryAas, entryDaa, entryDas, derive, keepCarry, decimalStatus]

@[simp] theorem outputsOf_result (f : Word) (ans : Answer) : (outputsOf f ans).result = ans.value := rfl
@[simp] theorem outputsOf_resWe (f : Word) (ans : Answer) : (outputsOf f ans).resWe = ans.writes := rfl
@[simp] theorem outputsOf_opErr (f : Word) (ans : Answer) : (outputsOf f ans).opErr = false := rfl
@[simp] theorem outputsOf_flagsOut (f : Word) (ans : Answer) :
    (outputsOf f ans).flagsOut = flagsOutWord ans.status f := rfl

/-- A bit of `flags_out` outside TF, IF and DF is that bit of the status (R32). -/
theorem flagsOutWord_getLsbD_status (S : Flags) (f : Word) (k : Nat) (h : controlMask.getLsbD k = false) :
    (flagsOutWord S f).getLsbD k = S.toWord.getLsbD k := by
  simp [flagsOutWord, h]

@[simp] theorem flagsOutWord_CF (S : Flags) (f : Word) : (flagsOutWord S f)[0] = S.CF := by
  rw [← BitVec.getLsbD_eq_getElem, flagsOutWord_getLsbD_status S f 0 (by decide)]; simp
@[simp] theorem flagsOutWord_PF (S : Flags) (f : Word) : (flagsOutWord S f)[2] = S.PF := by
  rw [← BitVec.getLsbD_eq_getElem, flagsOutWord_getLsbD_status S f 2 (by decide)]; simp
@[simp] theorem flagsOutWord_AF (S : Flags) (f : Word) : (flagsOutWord S f)[4] = S.AF := by
  rw [← BitVec.getLsbD_eq_getElem, flagsOutWord_getLsbD_status S f 4 (by decide)]; simp
@[simp] theorem flagsOutWord_ZF (S : Flags) (f : Word) : (flagsOutWord S f)[6] = S.ZF := by
  rw [← BitVec.getLsbD_eq_getElem, flagsOutWord_getLsbD_status S f 6 (by decide)]; simp
@[simp] theorem flagsOutWord_SF (S : Flags) (f : Word) : (flagsOutWord S f)[7] = S.SF := by
  rw [← BitVec.getLsbD_eq_getElem, flagsOutWord_getLsbD_status S f 7 (by decide)]; simp
@[simp] theorem flagsOutWord_OF (S : Flags) (f : Word) : (flagsOutWord S f)[11] = S.OF := by
  rw [← BitVec.getLsbD_eq_getElem, flagsOutWord_getLsbD_status S f 11 (by decide)]; simp

@[simp] theorem State.withFetchWord_op (s : State) (nbits w : Nat) :
    (s.withFetchWord nbits w).op = BitVec.ofNat 5 (w % 2 ^ nbits) := rfl
@[simp] theorem State.withFetchWord_a (s : State) (nbits w : Nat) : (s.withFetchWord nbits w).a = s.a := rfl
@[simp] theorem State.withFetchWord_b (s : State) (nbits w : Nat) : (s.withFetchWord nbits w).b = s.b := rfl
@[simp] theorem State.withFetchWord_flagsIn (s : State) (nbits w : Nat) :
    (s.withFetchWord nbits w).flagsIn = s.flagsIn := rfl
@[simp] theorem State.withFetchWord_out (s : State) (nbits w : Nat) : (s.withFetchWord nbits w).out = s.out := rfl

end Sys2Proof.Machine
end

