-- ==== Sys2Proof/Laws/Derive.lean ====
section
/-! SUPPORT. The bridge between the derivation of Machine/Flags.lean and the status words of Safety.lean, and the small
lemmas of the shared operations: operands, the fold of spec/41_binary_arith.md R100, and the adjustments of
spec/43_bcd_adjust.md. -/

namespace Sys2Proof.Machine

open Sys2Proof.Safety

@[simp] theorem zext16_toNat {n : Nat} (v : BitVec n) (h : n ≤ 16) : (zext16 v).toNat = v.toNat := by
  have : v.toNat < 2 ^ 16 := Nat.lt_of_lt_of_le v.isLt (Nat.pow_le_pow_right (by decide) h)
  simp only [zext16, BitVec.toNat_setWidth]
  exact Nat.mod_eq_of_lt this

@[simp] theorem zext16_word (v : Word) : zext16 v = v := by simp [zext16]

@[simp] theorem lo4_toNat {n : Nat} (v : BitVec n) : (lo4 v).toNat = v.toNat % 16 := by simp [lo4]

@[simp] theorem lo8_toNat (v : Word) : (lo8 v).toNat = v.toNat % 256 := by simp [lo8]

@[simp] theorem hi8_toNat (v : Word) : (hi8 v).toNat = v.toNat / 256 := by
  simp [hi8, Nat.shiftRight_eq_div_pow]; omega

@[simp] theorem joinBytes_toNat (hi lo : Byte) : (joinBytes hi lo).toNat = hi.toNat * 256 + lo.toNat := by
  rw [joinBytes, BitVec.toNat_append, ← Nat.shiftLeft_add_eq_or_of_lt lo.isLt, Nat.shiftLeft_eq]

@[simp] theorem carryValue_toNat {n : Nat} (c : Bool) (h : 0 < n) : (carryValue n c).toNat = c.toNat := by
  have : 1 < 2 ^ n := Nat.one_lt_two_pow (by omega)
  cases c <;> simp [carryValue, Nat.mod_eq_of_lt this]

@[simp] theorem opA_word (s : State) : s.opA 16 = s.a := by simp [State.opA]

@[simp] theorem opB_word (s : State) : s.opB 16 = s.b := by simp [State.opB]

@[simp] theorem opA_toNat (s : State) (n : Nat) : (s.opA n).toNat = s.a.toNat % 2 ^ n := by simp [State.opA]

@[simp] theorem opB_toNat (s : State) (n : Nat) : (s.opB n).toNat = s.b.toNat % 2 ^ n := by simp [State.opB]

/-- The two ways to say even parity (R81). -/
theorem evenParity_eq_flagPF {n : Nat} (v : BitVec n) : evenParity v = flagPF v := by
  simp only [evenParity, flagPF, popcount8, List.range, List.range.loop, List.countP, List.countP.go]
  generalize v.getLsbD 0 = b0
  generalize v.getLsbD 1 = b1
  generalize v.getLsbD 2 = b2
  generalize v.getLsbD 3 = b3
  generalize v.getLsbD 4 = b4
  generalize v.getLsbD 5 = b5
  generalize v.getLsbD 6 = b6
  generalize v.getLsbD 7 = b7
  revert b0 b1 b2 b3 b4 b5 b6 b7
  decide

/-- A status word is the word of the set of its flags (R27). -/
theorem statusWord_eq_toWord (cf pf af zf sf of : Bool) :
    statusWord cf pf af zf sf of = Flags.toWord { CF := cf, PF := pf, AF := af, ZF := zf, SF := sf, OF := of } := by
  revert cf pf af zf sf of
  decide

/-- ZERO on numbers (R82). -/
theorem flagZF_eq {n : Nat} (r : BitVec n) : flagZF r = decide (r.toNat = 0) := by
  rw [flagZF, Bool.eq_iff_iff]
  simp only [beq_iff_eq, decide_eq_true_eq]
  exact ⟨fun h => by simp [h], fun h => BitVec.eq_of_toNat_eq (by simp [h])⟩

/-- The additive status word is the word of `derive(ADD_LIKE, ...)` (R90). -/
theorem additiveStatus_eq_derive {n : Nat} (op1 op2 r : BitVec n) :
    additiveStatus op1 op2 r = (derive .addLike op1 op2 r).toWord := by
  rw [additiveStatus, statusWord_eq_toWord, evenParity_eq_flagPF, ← flagZF_eq]
  congr 2
  · simp [flagSF, BitVec.msb_eq_getLsbD_last]
  · simp [flagOFAdd, BitVec.msb_eq_getLsbD_last]

/-- The subtractive status word is the word of `derive(SUB_LIKE, ...)` (R90). -/
theorem subtractiveStatus_eq_derive {n : Nat} (op1 op2 r : BitVec n) :
    subtractiveStatus op1 op2 r = (derive .subLike op1 op2 r).toWord := by
  rw [subtractiveStatus, statusWord_eq_toWord, evenParity_eq_flagPF, ← flagZF_eq]
  congr 2
  · simp [flagAFSub, BitVec.ult]
  · simp [flagSF, BitVec.msb_eq_getLsbD_last]
  · simp [flagOFSub, BitVec.msb_eq_getLsbD_last]

/-- What `answered` writes is what a completed evaluation drives. -/
theorem answered_eq_drive (s : State) (ans : Answer) :
    answered s ans.value ans.writes ans.status.toWord = s.drive (outputsOf s.flagsIn ans) := rfl

/-- A presented select word that decodes to an instruction evaluates to that instruction's outputs. -/
theorem evaluates_of_decode {op : Select} {i : Instr} (h : decode op = .instr i) (s : State) (a b f : Word) :
    Evaluates s op a b f (outputsOf f (answerOf i (s.present op a b f))) :=
  step_of_instr (s := s.present op a b f) h

/-- The answer of an entry point depends on the input ports alone (R42). -/
theorem answerOf_congr (i : Instr) {s s' : State} (ha : s.a = s'.a) (hb : s.b = s'.b) (hf : s.flagsIn = s'.flagsIn) :
    answerOf i s = answerOf i s' := by
  cases i <;> simp only [answerOf, State.opA, State.opB, State.inputFlags, ha, hb, hf]

/-- Of `flags_in` the answer depends on the status flags alone: TF, IF and DF have no effect on it (R143, R148). -/
theorem answerOf_congr_status (i : Instr) {s s' : State} (ha : s.a = s'.a) (hb : s.b = s'.b)
    (hf : s.flagsIn &&& statusMask = s'.flagsIn &&& statusMask) : answerOf i s = answerOf i s' := by
  have hs := Flags.status_congr hf
  have hc : s.flagsIn[0] = s'.flagsIn[0] := by simpa using congrArg Flags.CF hs
  have hl : s.flagsIn[4] = s'.flagsIn[4] := by simpa using congrArg Flags.AF hs
  cases i <;> simp [answerOf, State.opA, State.opB, State.inputFlags, entryAdc, entrySbb, entryInc, entryDec,
    keepCarry, entryAaa, entryAas, entryDaa, entryDas, decimalUp, decimalDown, decimalStatus, lowDigitFires,
    highDigitFires, ha, hb, hc, hl, hs]

/-- The ASCII-adjust results have bits 7:4 clear (R121, R122). -/
theorem and_asciiMask_bits (v : Word) : v &&& asciiMask &&& 0x00F0#16 = 0#16 := by
  rw [BitVec.and_assoc]
  simp [asciiMask]

theorem lowDigitFires_eq {n : Nat} (v : BitVec n) (w : Word) :
    lowDigitFires v (Flags.ofWord w) = lowFires v.toNat w := by
  simp [lowDigitFires, lowFires, BitVec.ult]

theorem highDigitFires_eq (x : Byte) (w : Word) : highDigitFires x (Flags.ofWord w) = highFires x.toNat w := by
  simp [highDigitFires, highFires, BitVec.ult]

/-- The second operand after the fold of the carry-in (R100). -/
theorem fold_fst {n : Nat} (p : CarryInFold) (kind : FoldKind) (a b : BitVec n) (c : Bool) (h : 0 < n) :
    (fold p kind a b c).1 = foldedOp2 p b c := by
  have hc : b + carryValue n c = BitVec.ofNat n (b.toNat + c.toNat) := BitVec.eq_of_toNat_eq (by simp [h])
  cases p <;> cases kind <;> simp [fold, foldedOp2, hc]

/-- The result of an additive fold, on numbers (R100). -/
theorem fold_add_toNat {n : Nat} (p : CarryInFold) (a b : BitVec n) (c : Bool) (h : 0 < n) :
    (fold p .add a b c).2.toNat = (a.toNat + b.toNat + c.toNat) % 2 ^ n := by
  cases p <;> simp [fold, h, Nat.add_assoc]

/-- AAA's adjustment, on numbers (R120). -/
theorem adjustUp_toNat (p : AaxAdjust) (acc : Word) : (adjustUp p acc).toNat = adjustedUp p acc.toNat := by
  cases p <;> simp [adjustUp, adjustedUp]

/-- AAS's adjustment, on numbers (R120). -/
theorem adjustDown_toNat (p : AaxAdjust) (acc : Word) : (adjustDown p acc).toNat = adjustedDown p acc.toNat := by
  cases p <;> (simp [adjustDown, adjustedDown, BitVec.toNat_sub]; omega)

/-- The two steps of DAA, on numbers (R124). -/
theorem decimalUp_toNat (x : Byte) (w : Word) :
    (decimalUp x (Flags.ofWord w)).toNat =
      (x.toNat + (if lowFires x.toNat w then 0x06 else 0) + (if highFires x.toNat w then 0x60 else 0)) % 256 := by
  simp only [decimalUp, lowDigitFires_eq, highDigitFires_eq]
  cases lowFires x.toNat w <;> cases highFires x.toNat w <;> (simp; try omega)

/-- The two steps of DAS, on numbers (R125). -/
theorem decimalDown_toNat (x : Byte) (w : Word) :
    (decimalDown x (Flags.ofWord w)).toNat =
      (x.toNat + 512 - (if lowFires x.toNat w then 0x06 else 0) - (if highFires x.toNat w then 0x60 else 0)) % 256 := by
  simp only [decimalDown, lowDigitFires_eq, highDigitFires_eq]
  cases lowFires x.toNat w <;> cases highFires x.toNat w <;> (simp [BitVec.toNat_sub]; try omega)

end Sys2Proof.Machine
end

