-- ==== Sys2Proof/Laws/PerInstr.lean ====
section
/-! SUPPORT. The statements made per instruction. TableRow: the row of spec/opcode_table.json and the decoder of
spec/30_encoding.md R69 name the same select words for the instruction. -/

namespace Sys2Proof.Laws.TableRow

/-- A select word meets the row's `match` under its `mask` exactly when the decoder reads the instruction from it. -/
def Statement (i : Instr) : Prop :=
  ∀ op : Select, op &&& (opcodeRow i).2 = (opcodeRow i).1 ↔ decode op = .instr i

theorem add8 : Statement .add8 := by unfold Statement; decide
theorem add16 : Statement .add16 := by unfold Statement; decide
theorem adc8 : Statement .adc8 := by unfold Statement; decide
theorem adc16 : Statement .adc16 := by unfold Statement; decide
theorem sub8 : Statement .sub8 := by unfold Statement; decide
theorem sub16 : Statement .sub16 := by unfold Statement; decide
theorem sbb8 : Statement .sbb8 := by unfold Statement; decide
theorem sbb16 : Statement .sbb16 := by unfold Statement; decide
theorem inc8 : Statement .inc8 := by unfold Statement; decide
theorem inc16 : Statement .inc16 := by unfold Statement; decide
theorem dec8 : Statement .dec8 := by unfold Statement; decide
theorem dec16 : Statement .dec16 := by unfold Statement; decide
theorem neg8 : Statement .neg8 := by unfold Statement; decide
theorem neg16 : Statement .neg16 := by unfold Statement; decide
theorem cmp8 : Statement .cmp8 := by unfold Statement; decide
theorem cmp16 : Statement .cmp16 := by unfold Statement; decide
theorem aaa : Statement .aaa := by unfold Statement; decide
theorem aas : Statement .aas := by unfold Statement; decide
theorem daa : Statement .daa := by unfold Statement; decide
theorem das : Statement .das := by unfold Statement; decide

end Sys2Proof.Laws.TableRow
end

