-- ==== Sys2Proof/Laws/Text.lean ====
section
/-! SUPPORT. The small lemmas of the call syntax of spec/30_encoding.md R70: what a word of a text is cut into, what a
written numeral, flag name and set literal are read as, and what a text that is read as a call consists of. -/

namespace Sys2Proof.Machine

/-- A character of a word: neither punctuation nor a space. -/
def Plain (c : Char) : Prop := punctuation c = none ∧ c ≠ ' '

theorem tokens_plain (w : List Char) (h : ∀ c ∈ w, Plain c) (acc rest : List Char) :
    tokens acc (w ++ rest) = tokens (acc ++ w) rest := by
  induction w generalizing acc with
  | nil => simp
  | cons c w ih =>
    have hc := h c (by simp)
    simp only [List.cons_append, tokens, hc.1, hc.2, if_false]
    rw [ih (fun d hd => h d (by simp [hd]))]
    simp

/-- A character of punctuation ends the word before it. -/
theorem tokens_punctuation {c : Char} {t : Token} (h : punctuation c = some t) (acc rest : List Char) :
    tokens acc (c :: rest) = endWord acc ++ t :: tokens [] rest := by simp [tokens, h]

theorem tokens_space (acc rest : List Char) : tokens acc (' ' :: rest) = endWord acc ++ tokens [] rest := by
  have h : punctuation ' ' = none := by decide
  simp [tokens, h]

/-- A word and the punctuation after it. -/
theorem tokens_word {w : List Char} (h : ∀ c ∈ w, Plain c) (hw : w ≠ []) {c : Char} {t : Token}
    (hc : punctuation c = some t) (rest : List Char) :
    tokens [] (w ++ c :: rest) = .word w :: t :: tokens [] rest := by
  rw [tokens_plain w h, tokens_punctuation hc]
  simp [endWord, hw]

theorem mnemonicOf_plain (i : Instr) : ∀ c ∈ mnemonicOf i, Plain c := by
  cases i <;> simp [mnemonicOf, Plain, punctuation]

theorem mnemonicOf_ne_nil (i : Instr) : mnemonicOf i ≠ [] := by cases i <;> decide

theorem flagName_plain (long : Bool) (f : Flag) : ∀ c ∈ flagName long f, Plain c := by
  cases long <;> cases f <;> simp [flagName, Plain, punctuation]

theorem flagName_ne_nil (long : Bool) (f : Flag) : flagName long f ≠ [] := by cases long <;> cases f <;> decide

/-- A mnemonic names its instruction. -/
@[simp] theorem instrNamed_mnemonicOf (i : Instr) : instrNamed (mnemonicOf i) = some i := by cases i <;> decide

/-- And only its mnemonic names it. -/
theorem mnemonicOf_of_instrNamed {m : List Char} {i : Instr} (h : instrNamed m = some i) : mnemonicOf i = m := by
  simpa using List.find?_some h

/-- Either name of a flag names it. -/
@[simp] theorem flagNamed_flagName (long : Bool) (f : Flag) : flagNamed (flagName long f) = some f := by
  cases long <;> cases f <;> decide

/-- The character of a digit is read as that digit, belongs to a word, and is not the `x` of a hex numeral. -/
theorem digitChar_spec : ∀ d < 16, digitValue (digitChar d) = some d ∧
    (punctuation (digitChar d) = none ∧ digitChar d ≠ ' ') ∧ digitChar d ≠ 'x' := by decide

theorem digits_append (base acc : Nat) (xs ys : List Char) :
    digits base acc (xs ++ ys) = (digits base acc xs).bind fun a => digits base a ys := by
  induction xs generalizing acc with
  | nil => rfl
  | cons c xs ih =>
    simp only [List.cons_append, digits]
    cases digitValue c with
    | none => rfl
    | some d => by_cases h : d < base <;> simp [h, ih]

theorem digits_digitChar (base acc d : Nat) (hb : base ≤ 16) (hd : d < base) :
    digits base acc [digitChar d] = some (acc * base + d) := by
  simp [digits, (digitChar_spec d (by omega)).1, hd]

/-- Written digits are read back. -/
theorem digits_digitsOf (base fuel v : Nat) (hb : 0 < base ∧ base ≤ 16) (hv : v < base ^ fuel) (hf : 0 < fuel) :
    digits base 0 (digitsOf base fuel v) = some v := by
  induction fuel generalizing v with
  | zero => omega
  | succ k ih =>
    rw [digitsOf]
    split
    · next h => simpa using digits_digitChar base 0 v hb.2 h
    · next h =>
      have hk : 0 < k := by
        rcases Nat.eq_zero_or_pos k with rfl | hk
        · simp at hv; omega
        · exact hk
      have hq : v / base < base ^ k := Nat.div_lt_of_lt_mul (by rw [Nat.pow_succ] at hv; rwa [Nat.mul_comm])
      rw [digits_append, ih _ hq hk]
      simp [digits_digitChar base _ _ hb.2 (Nat.mod_lt v hb.1), Nat.div_add_mod']

/-- Every character of written digits is a digit's. -/
theorem digitsOf_mem {base fuel v : Nat} (hb : 0 < base) {c : Char} (h : c ∈ digitsOf base fuel v) :
    ∃ d < base, c = digitChar d := by
  induction fuel generalizing v with
  | zero => simp [digitsOf] at h
  | succ k ih =>
    rw [digitsOf] at h
    split at h
    · next hv => exact ⟨v, hv, by simpa using h⟩
    · rcases List.mem_append.mp h with h | h
      · exact ih h
      · exact ⟨v % base, Nat.mod_lt v hb, by simpa using h⟩

theorem digitsOf_ne_nil (base fuel v : Nat) : digitsOf base (fuel + 1) v ≠ [] := by
  rw [digitsOf]; split <;> simp

theorem printNumeral_plain (hex : Bool) (v : Nat) : ∀ c ∈ printNumeral hex v, Plain c := by
  have hd : ∀ base, 0 < base → base ≤ 16 → ∀ c ∈ digitsOf base 16 v, Plain c := fun base h0 h16 c hc => by
    obtain ⟨d, hlt, rfl⟩ := digitsOf_mem h0 hc
    exact (digitChar_spec d (by omega)).2.1
  have h0 : Plain '0' := ⟨by decide, by decide⟩
  have hx : Plain 'x' := ⟨by decide, by decide⟩
  cases hex
  · exact hd 10 (by omega) (by omega)
  · intro c hc
    rcases List.mem_cons.mp hc with rfl | hc
    · exact h0
    rcases List.mem_cons.mp hc with rfl | hc
    · exact hx
    exact hd 16 (by omega) (by omega) c hc

theorem printNumeral_ne_nil (hex : Bool) (v : Nat) : printNumeral hex v ≠ [] := by
  cases hex
  · exact digitsOf_ne_nil 10 15 v
  · simp [printNumeral]

/-- A text that does not begin `0x` is a decimal numeral. -/
theorem numeral_decimal {d : Char} {ds : List Char} (h : ∀ c ∈ ds, c ≠ 'x') :
    numeral (d :: ds) = digits 10 0 (d :: ds) := by
  unfold numeral
  split
  · next heq =>
    injection heq with _ heq
    exact absurd rfl (h 'x' (by simp [heq]))
  · next heq => injection heq with h1 h2; rw [h1, h2]
  · next heq => cases heq

/-- A written numeral is read back. -/
theorem numeral_printNumeral (hex : Bool) (v : Nat) (hv : v < 2 ^ 16) : numeral (printNumeral hex v) = some v := by
  cases hex with
  | false =>
    have hd := digits_digitsOf 10 16 v (by omega) (by omega) (by omega)
    simp only [printNumeral, Bool.false_eq_true, if_false]
    cases h : digitsOf 10 16 v with
    | nil => exact absurd h (digitsOf_ne_nil 10 15 v)
    | cons d ds =>
      rw [numeral_decimal, ← h, hd]
      intro c hc
      obtain ⟨e, he, rfl⟩ := digitsOf_mem (base := 10) (by omega) (h ▸ List.mem_cons_of_mem d hc)
      exact (digitChar_spec e (by omega)).2.2
  | true =>
    have hd := digits_digitsOf 16 16 v (by omega) (by omega) (by omega)
    simp only [printNumeral, if_true]
    cases h : digitsOf 16 16 v with
    | nil => exact absurd h (digitsOf_ne_nil 16 15 v)
    | cons d ds => rw [← hd, h]; rfl

/-- The tail of a written set literal. -/
theorem flagsTail_print (long : Bool) (fs : List Flag) (F : Flags) (rest : List Char) :
    flagsTail F (tokens [] (printFlagsTail long fs ++ rest)) =
      some (fs.foldl (fun G f => G.union (.when f true)) F, tokens [] rest) := by
  have hr : punctuation (Char.ofNat 125) = some .rbrace := by decide
  have hcm : punctuation ',' = some .comma := by decide
  have key : ∀ (f : Flag) (fs : List Flag), ∃ c t cs, punctuation c = some t ∧ printFlagsTail long fs ++ rest = c :: cs := by
    intro _ fs
    cases fs with
    | nil => exact ⟨_, _, rest, hr, rfl⟩
    | cons g gs => exact ⟨_, _, _, hcm, rfl⟩
  induction fs generalizing F with
  | nil => simp [printFlagsTail, tokens_punctuation hr, endWord, flagsTail]
  | cons f fs ih =>
    obtain ⟨c, t, cs, hc, hcs⟩ := key f fs
    have h1 : tokens [] (printFlagsTail long (f :: fs) ++ rest) =
        .comma :: .word (flagName long f) :: tokens [] (printFlagsTail long fs ++ rest) := by
      simp only [printFlagsTail, List.cons_append, List.append_assoc]
      rw [tokens_punctuation hcm, tokens_space, hcs, tokens_word (flagName_plain long f) (flagName_ne_nil long f) hc,
        tokens_punctuation hc]
      simp [endWord]
    rw [h1]
    simp only [flagsTail, flagNamed_flagName, Option.bind_some, ih, List.foldl_cons]

/-- A set is made by its members, one after another. -/
theorem foldl_members (F : Flags) : (allFlags.filter F.mem).foldl (fun G f => G.union (.when f true)) {} = F := by
  obtain ⟨a, b, c, d, e, f, g, h, i⟩ := F
  revert a b c d e f g h i
  decide

/-- A written set literal is read back. -/
theorem flagsLiteral_printFlags (long : Bool) (F : Flags) (rest : List Char) :
    ∃ ts, tokens [] (printFlags long F ++ rest) = .lbrace :: ts ∧ flagsLiteral ts = some (F, tokens [] rest) := by
  have hl : punctuation (Char.ofNat 123) = some .lbrace := by decide
  have hr : punctuation (Char.ofNat 125) = some .rbrace := by decide
  have hcm : punctuation ',' = some .comma := by decide
  refine ⟨tokens [] (printFlagsBody long (allFlags.filter F.mem) ++ rest), ?_, ?_⟩
  · simp only [printFlags, List.cons_append]
    rw [tokens_punctuation hl]
    simp [endWord]
  have hF := foldl_members F
  generalize allFlags.filter F.mem = fs at hF ⊢
  cases fs with
  | nil =>
    simp only [printFlagsBody, List.cons_append, List.nil_append]
    rw [tokens_punctuation hr]
    simpa [endWord, flagsLiteral] using hF
  | cons f fs =>
    have hw : tokens [] (printFlagsBody long (f :: fs) ++ rest) =
        .word (flagName long f) :: tokens [] (printFlagsTail long fs ++ rest) := by
      simp only [printFlagsBody, List.append_assoc]
      cases fs with
      | nil =>
        simp only [printFlagsTail, List.cons_append]
        rw [tokens_word (flagName_plain long f) (flagName_ne_nil long f) hr, tokens_punctuation hr]
        simp [endWord]
      | cons g gs =>
        simp only [printFlagsTail, List.cons_append]
        rw [tokens_word (flagName_plain long f) (flagName_ne_nil long f) hcm, tokens_punctuation hcm]
        simp [endWord]
    have hu : Flags.union {} (.when f true) = .when f true := by cases f <;> decide
    simp only [List.foldl_cons, hu] at hF
    rw [hw]
    simp only [flagsLiteral, flagNamed_flagName, Option.bind_some, flagsTail_print, hF]

/-- What the end of an argument list can be read as. -/
theorem callEnd_cases {i : Instr} {a : Nat} {b : Option Nat} {ts : List Token} {c : Call}
    (h : callEnd i a b ts = some c) :
    c.instr = i ∧ c.a = a ∧ c.b = b ∧
      (if c.instr.takesFlags then ∃ fs, ts = .comma :: .lbrace :: fs ∧ flagsLiteral fs = some (c.flags, [.rparen])
        else ts = [.rparen] ∧ c.flags = {}) := by
  unfold callEnd at h
  split at h
  · next hi =>
    split at h
    · split at h
      · next F heq => cases h; simp [hi, heq]
      · cases h
    · cases h
  · next hi =>
    split at h
    · next h1 => cases h; simp [hi, h1]
    · cases h

/-- What is read as a call is the call its tokens spell, and that call is well formed. -/
theorem parseCall_eq_some_iff {text : List Char} {c : Call} :
    parseCall text = some c ↔ callOfTokens (tokens [] text) = some c ∧ c.wellFormed = true := by
  simp only [parseCall, Option.bind_eq_some_iff]
  constructor
  · rintro ⟨d, hd, h⟩
    split at h
    · next hw => cases h; exact ⟨hd, hw⟩
    · cases h
  · rintro ⟨h, hw⟩
    exact ⟨c, h, by simp [hw]⟩

end Sys2Proof.Machine
end

