-- ==== Sys2Proof/Tests/Slice0.lean ====
section
/-! SUPPORT. Tests of the model, with expected values from outside it: the encodings of spec/30_encoding.md R63 written
out in bits, the calls of R70, the derivation vectors D-1 to D-8 and some of the vectors V1 to V126 of
spec/95_test_vectors.md, cited by id; and, for every statement of Certificates/Slice0 with hypotheses, a witness that
meets them. -/

namespace Sys2Proof.Tests

open Sys2Proof.Machine Sys2Proof.Safety

/-- The input ports at these values, before the first evaluation. -/
def ports (op : Select) (a b flagsIn : Word) : State := { op := op, a := a, b := b, flagsIn := flagsIn, out := none }

/-- The output ports after one step. -/
def outputs (s : State) : Option Outputs :=
  match step s with
  | .next t => t.out
  | .fault _ => none
  | .refused _ => none

/-- The outputs of ADC at a width, for a fold named by the test. -/
def adcOutputs (p : CarryInFold) (n : Nat) (s : State) : Outputs :=
  outputsOf s.flagsIn (entryAdc p (s.opA n) (s.opB n) s.inputFlags)

/-- The outputs of SBB at a width, for a fold named by the test. -/
def sbbOutputs (p : CarryInFold) (n : Nat) (s : State) : Outputs :=
  outputsOf s.flagsIn (entrySbb p (s.opA n) (s.opB n) s.inputFlags)

/-- The outputs of AAA for an adjustment named by the test. -/
def aaaOutputs (p : AaxAdjust) (s : State) : Outputs := outputsOf s.flagsIn (entryAaa p (s.opA 16) s.inputFlags)

/-- The outputs of AAS for an adjustment named by the test. -/
def aasOutputs (p : AaxAdjust) (s : State) : Outputs := outputsOf s.flagsIn (entryAas p (s.opA 16) s.inputFlags)

/-- The outputs of DAA for a `daa_of` named by the test. -/
def daaOutputs (d : Byte → Flags → Bool) (s : State) : Outputs := outputsOf s.flagsIn (entryDaa d (s.opA 8) s.inputFlags)

/-! ### Decoding: each constructor's words, from R63 -/

/-- ADD, ADC: bits w = 0 or 1, f = 0000 and 0001. -/
theorem test_decode_add_adc :
    decode 0b00000#5 = .instr .add8 ∧ decode 0b10000#5 = .instr .add16 ∧
    decode 0b00001#5 = .instr .adc8 ∧ decode 0b10001#5 = .instr .adc16 := by decide

/-- SUB, SBB: f = 0010 and 0011. -/
theorem test_decode_sub_sbb :
    decode 0b00010#5 = .instr .sub8 ∧ decode 0b10010#5 = .instr .sub16 ∧
    decode 0b00011#5 = .instr .sbb8 ∧ decode 0b10011#5 = .instr .sbb16 := by decide

/-- INC, DEC: f = 0100 and 0101. -/
theorem test_decode_inc_dec :
    decode 0b00100#5 = .instr .inc8 ∧ decode 0b10100#5 = .instr .inc16 ∧
    decode 0b00101#5 = .instr .dec8 ∧ decode 0b10101#5 = .instr .dec16 := by decide

/-- NEG, CMP: f = 0110 and 0111. -/
theorem test_decode_neg_cmp :
    decode 0b00110#5 = .instr .neg8 ∧ decode 0b10110#5 = .instr .neg16 ∧
    decode 0b00111#5 = .instr .cmp8 ∧ decode 0b10111#5 = .instr .cmp16 := by decide

/-- AAA, AAS, DAA, DAS: f = 1000 to 1011, canonical spelling first, alias second. -/
theorem test_decode_bcd :
    decode 0b11000#5 = .instr .aaa ∧ decode 0b01000#5 = .instr .aaa ∧
    decode 0b11001#5 = .instr .aas ∧ decode 0b01001#5 = .instr .aas ∧
    decode 0b01010#5 = .instr .daa ∧ decode 0b11010#5 = .instr .daa ∧
    decode 0b01011#5 = .instr .das ∧ decode 0b11011#5 = .instr .das := by decide

/-- f = 1100 and 1111 are reserved with either width bit (R66). -/
theorem test_decode_reserved :
    decode 0b01100#5 = .reserved 0b01100#5 ∧ decode 0b11111#5 = .reserved 0b11111#5 := by decide

/-- A table row's bits, in whole bytes; a value with a bit above bit 4 is no select word (R68). -/
theorem test_decodeTableWord :
    decodeTableWord 8 0x12 = some .sub16 ∧ decodeTableWord 8 0x0C = none ∧ decodeTableWord 8 0x20 = none := by decide

/-- The word presented is the one the next step runs: V39, with SUB16 presented over ADD8. -/
theorem test_withFetchWord :
    ((ports 0#5 0x8000#16 0x0001#16 0#16).withFetchWord 8 0x12).op = 0x12#5 ∧
    outputs ((ports 0#5 0x8000#16 0x0001#16 0#16).withFetchWord 8 0x12) = some ⟨0x7FFF#16, true, 0x0814#16, false⟩ := by
  decide

/-! ### WellFormed: an ill-formed call for each check, and a call of each shape that passes -/

theorem test_wellFormed_accepts :
    ({ instr := .add8, a := 0xFF, b := some 1 } : Call).wellFormed = true ∧
    ({ instr := .inc16, a := 0xFFFF, flags := { CF := true } } : Call).wellFormed = true ∧
    ({ instr := .neg8, a := 0x80, flags := { IF := true } } : Call).wellFormed = true := by decide

/-- `aFits`: 0x10000 does not fit the 16-bit port. -/
theorem test_wellFormed_refuses_wide_a : ({ instr := .neg16, a := 0x10000 } : Call).wellFormed = false := by decide

/-- `bGiven`: ADD8 without `b`, and INC8 with one. -/
theorem test_wellFormed_refuses_operand_count :
    ({ instr := .add8, a := 0 } : Call).wellFormed = false ∧
    ({ instr := .inc8, a := 0, b := some 0 } : Call).wellFormed = false := by decide

/-- `bFits`. -/
theorem test_wellFormed_refuses_wide_b :
    ({ instr := .cmp16, a := 0, b := some 0x10000 } : Call).wellFormed = false := by decide

/-- `flagsAllowed`: a status flag beside a form without `F`. -/
theorem test_wellFormed_refuses_status_flag :
    ({ instr := .sub8, a := 0, b := some 0, flags := { CF := true } } : Call).wellFormed = false := by decide

/-- ADD8(0xFF) spells no call: the form has two operands (R70). -/
theorem test_parseCall_refuses :
    parseCall ['A', 'D', 'D', '8', '(', '0', 'x', 'F', 'F', ')'] = none ∧
    parseCall ['N', 'E', 'G', '(', '1', ')'] = none := by decide

/-- The source's DAA call, written as the source writes it (R70), and a decimal ADD8 with no Flags argument. -/
theorem test_printCall :
    printCall ⟨true, true, true⟩ { instr := .daa, a := 0xAE, flags := { SF := true } } =
      ['D', 'A', 'A', '(', '0', 'x', 'A', 'E', ',', ' ', Char.ofNat 123, 'S', 'I', 'G', 'N', Char.ofNat 125, ')'] ∧
    printCall ⟨false, false, false⟩ { instr := .add8, a := 255, b := some 0 } =
      ['A', 'D', 'D', '8', '(', '2', '5', '5', ',', ' ', '0', ')'] := by decide

/-! ### The derivation: D-1 to D-8 -/

theorem test_derive_additive :
    derive .addLike 0x00FF#16 0x0001#16 0x0100#16 = { PF := true, AF := true } ∧
    derive .addLike 0x08#8 0x08#8 0x10#8 = { AF := true } ∧
    derive .addLike 0x0F#8 0x01#8 0x10#8 = { AF := true } ∧
    derive .addLike 0x08#8 0x00#8 0x08#8 = {} := by decide

theorem test_derive_subtractive_and_bcd :
    derive .subLike 0x10#8 0x01#8 0x0F#8 = { PF := true, AF := true } ∧
    derive .subLike 0x00#8 0x00#8 0xFF#8 = { PF := true, SF := true } ∧
    derive .bcd 0xAE#8 0x00#8 0x14#8 = { PF := true } ∧
    derive .subLike 0x8000#16 0x0001#16 0x7FFF#16 = { PF := true, AF := true, OF := true } := by decide

/-! ### Instructions: vectors of spec/95_test_vectors.md -/

/-- V7, V8. -/
theorem test_add8_wraps_on_low_bytes :
    outputs (ports 0x00#5 0x12FF#16 0x3401#16 0x0000#16) = some ⟨0x0000#16, true, 0x0055#16, false⟩ ∧
    outputs (ports 0x00#5 0x0055#16 0x0000#16 0x0FD5#16) = some ⟨0x0055#16, true, 0x0704#16, false⟩ := by
  decide

/-- V10, V12. -/
theorem test_add16_zero_is_full_width_parity_low_byte :
    outputs (ports 0x10#5 0x7FFF#16 0x0001#16 0x0000#16) = some ⟨0x8000#16, true, 0x0894#16, false⟩ ∧
    outputs (ports 0x10#5 0x00FF#16 0x0001#16 0x0000#16) = some ⟨0x0100#16, true, 0x0014#16, false⟩ := by
  decide

/-- V16, V17. -/
theorem test_adc8_folds_differ :
    adcOutputs .intoResult 8 (ports 0x01#5 0x0000#16 0x00FF#16 0x0001#16) = ⟨0x0000#16, true, 0x0054#16, false⟩ ∧
    adcOutputs .intoOp2 8 (ports 0x01#5 0x0000#16 0x00FF#16 0x0001#16) = ⟨0x0000#16, true, 0x0044#16, false⟩ := by
  decide

/-- V26, V30. -/
theorem test_adc16_folds_differ :
    adcOutputs .intoResult 16 (ports 0x11#5 0x1234#16 0x0F0F#16 0x0001#16) = ⟨0x2144#16, true, 0x0014#16, false⟩ ∧
    adcOutputs .intoOp2 16 (ports 0x11#5 0x0000#16 0xFFFF#16 0x0001#16) = ⟨0x0000#16, true, 0x0044#16, false⟩ := by
  decide

/-- V32, V37. -/
theorem test_sub8_overflows :
    outputs (ports 0x02#5 0x0080#16 0x007F#16 0x0000#16) = some ⟨0x0001#16, true, 0x0810#16, false⟩ ∧
    outputs (ports 0x02#5 0x007F#16 0x0080#16 0x0000#16) = some ⟨0x00FF#16, true, 0x0885#16, false⟩ := by
  decide

/-- V38, V39. -/
theorem test_sub16_borrows_and_overflows :
    outputs (ports 0x12#5 0x0000#16 0x0001#16 0x0000#16) = some ⟨0xFFFF#16, true, 0x0095#16, false⟩ ∧
    outputs (ports 0x12#5 0x8000#16 0x0001#16 0x0000#16) = some ⟨0x7FFF#16, true, 0x0814#16, false⟩ := by
  decide

/-- V43, V48. -/
theorem test_sbb8_folds_differ :
    sbbOutputs .intoResult 8 (ports 0x03#5 0x0005#16 0x0005#16 0x0001#16) = ⟨0x00FF#16, true, 0x0084#16, false⟩ ∧
    sbbOutputs .intoOp2 8 (ports 0x03#5 0x0010#16 0x00FF#16 0x0001#16) = ⟨0x0010#16, true, 0x0000#16, false⟩ := by
  decide

/-- V54, V57. -/
theorem test_sbb16_folds_differ :
    sbbOutputs .intoResult 16 (ports 0x13#5 0x0000#16 0xFFFF#16 0x0001#16) = ⟨0x0000#16, true, 0x0055#16, false⟩ ∧
    sbbOutputs .intoOp2 16 (ports 0x13#5 0x1234#16 0x1234#16 0x0001#16) = ⟨0xFFFF#16, true, 0x0095#16, false⟩ := by
  decide

/-- V58, V61. -/
theorem test_inc8_copies_carry :
    outputs (ports 0x04#5 0x007F#16 0x0000#16 0x0001#16) = some ⟨0x0080#16, true, 0x0891#16, false⟩ ∧
    outputs (ports 0x04#5 0x0000#16 0x0000#16 0x0041#16) = some ⟨0x0001#16, true, 0x0001#16, false⟩ := by
  decide

/-- V62, V64. -/
theorem test_inc16_wraps_without_carry :
    outputs (ports 0x14#5 0xFFFF#16 0x0000#16 0x0000#16) = some ⟨0x0000#16, true, 0x0054#16, false⟩ ∧
    outputs (ports 0x14#5 0x00FF#16 0x0000#16 0x0000#16) = some ⟨0x0100#16, true, 0x0014#16, false⟩ := by
  decide

/-- V66, V68. -/
theorem test_dec8_wraps_without_carry :
    outputs (ports 0x05#5 0x0000#16 0x0000#16 0x0000#16) = some ⟨0x00FF#16, true, 0x0094#16, false⟩ ∧
    outputs (ports 0x05#5 0x0010#16 0x0000#16 0x0001#16) = some ⟨0x000F#16, true, 0x0015#16, false⟩ := by
  decide

/-- V70, V71. -/
theorem test_dec16_overflows :
    outputs (ports 0x15#5 0x8000#16 0x0000#16 0x0000#16) = some ⟨0x7FFF#16, true, 0x0814#16, false⟩ ∧
    outputs (ports 0x15#5 0x0100#16 0x0000#16 0x0000#16) = some ⟨0x00FF#16, true, 0x0014#16, false⟩ := by
  decide

/-- V82, V84. -/
theorem test_neg8_of_least_value_and_low_nibble_zero :
    outputs (ports 0x06#5 0x0080#16 0x0000#16 0x0000#16) = some ⟨0x0080#16, true, 0x0881#16, false⟩ ∧
    outputs (ports 0x06#5 0x0010#16 0x0000#16 0x0000#16) = some ⟨0x00F0#16, true, 0x0085#16, false⟩ := by
  decide

/-- V86, V87. -/
theorem test_neg16_of_least_value :
    outputs (ports 0x16#5 0x8000#16 0x0000#16 0x0000#16) = some ⟨0x8000#16, true, 0x0885#16, false⟩ ∧
    outputs (ports 0x16#5 0xFFFB#16 0x0000#16 0x0000#16) = some ⟨0x0005#16, true, 0x0015#16, false⟩ := by
  decide

/-- V72, V76. -/
theorem test_cmp8_writes_nothing_back :
    outputs (ports 0x07#5 0x0055#16 0x0055#16 0x0000#16) = some ⟨0x0000#16, false, 0x0044#16, false⟩ ∧
    outputs (ports 0x07#5 0x007F#16 0x0080#16 0x0000#16) = some ⟨0x00FF#16, false, 0x0885#16, false⟩ := by
  decide

/-- V77, V79. -/
theorem test_cmp16_passes_control_flags :
    outputs (ports 0x17#5 0x1000#16 0x2000#16 0x0000#16) = some ⟨0xF000#16, false, 0x0085#16, false⟩ ∧
    outputs (ports 0x17#5 0x8000#16 0x8000#16 0x0700#16) = some ⟨0x0000#16, false, 0x0744#16, false⟩ := by
  decide

/-- V90, V91, V98. -/
theorem test_aaa_adjusts :
    aaaOutputs .split (ports 0x18#5 0x00FA#16 0x0000#16 0x0000#16) = ⟨0x0100#16, true, 0x0011#16, false⟩ ∧
    aaaOutputs .word (ports 0x18#5 0x00FA#16 0x0000#16 0x0000#16) = ⟨0x0200#16, true, 0x0011#16, false⟩ ∧
    aaaOutputs AaxAdjust.reference (ports 0x18#5 0x0034#16 0x0000#16 0x0210#16) = ⟨0x010A#16, true, 0x0211#16, false⟩ := by
  decide

/-- V93. -/
theorem test_aaa_masks_without_adjusting :
    outputs (ports 0x18#5 0x0234#16 0x0000#16 0x0081#16) = some ⟨0x0204#16, true, 0x0000#16, false⟩ := by
  decide

/-- V101, V102. -/
theorem test_aas_adjusts :
    aasOutputs .split (ports 0x19#5 0x0203#16 0x0000#16 0x0010#16) = ⟨0x010D#16, true, 0x0011#16, false⟩ ∧
    aasOutputs .word (ports 0x19#5 0x0203#16 0x0000#16 0x0010#16) = ⟨0x000D#16, true, 0x0011#16, false⟩ := by
  decide

/-- V99. -/
theorem test_aas_masks_without_adjusting :
    outputs (ports 0x19#5 0x05C7#16 0x0000#16 0x0081#16) = some ⟨0x0507#16, true, 0x0000#16, false⟩ := by
  decide

/-- V106, V108, V114. -/
theorem test_daa_in_reference_configuration :
    daaOutputs daaOfReference (ports 0x0A#5 0x00AE#16 0x0000#16 0x0080#16) = ⟨0x0014#16, true, 0x0015#16, false⟩ ∧
    daaOutputs daaOfReference (ports 0x0A#5 0x009A#16 0x0000#16 0x0000#16) = ⟨0x00A0#16, true, 0x0094#16, false⟩ ∧
    daaOutputs daaOfReference (ports 0x0A#5 0x12AE#16 0x0000#16 0x0000#16) = ⟨0x0014#16, true, 0x0015#16, false⟩ := by
  decide

/-- R148, C6: a `daa_of` that tries to read TF, IF or DF sees none, and one that reads SF sees it (R123). -/
theorem test_daa_of_sees_status_flags_alone :
    daaOutputs (fun _ F => F.TF || F.IF || F.DF) (ports 0x0A#5 0x00AE#16 0#16 0x0780#16) = ⟨0x0014#16, true, 0x0715#16, false⟩ ∧
    daaOutputs (fun _ F => F.SF) (ports 0x0A#5 0x00AE#16 0#16 0x0780#16) = ⟨0x0014#16, true, 0x0F15#16, false⟩ := by
  decide

/-- V117, V121, V123. -/
theorem test_das_steps :
    outputs (ports 0x0B#5 0x0003#16 0x0000#16 0x0010#16) = some ⟨0x00FD#16, true, 0x0090#16, false⟩ ∧
    outputs (ports 0x0B#5 0x00A0#16 0x0000#16 0x0000#16) = some ⟨0x0040#16, true, 0x0001#16, false⟩ ∧
    outputs (ports 0x1B#5 0x001E#16 0x0000#16 0x0000#16) = some ⟨0x0018#16, true, 0x0014#16, false⟩ := by
  decide

/-- V124, V126. -/
theorem test_reserved_words :
    outputs (ports 0x0C#5 0x0001#16 0x0002#16 0xFFFF#16) = some ⟨0x0000#16, false, 0x0FD5#16, true⟩ ∧
    outputs (ports 0x0F#5 0x1234#16 0x5678#16 0x0141#16) = some ⟨0x0000#16, false, 0x0141#16, true⟩ := by
  decide

/-! ### Witnesses: what the hypotheses of each statement ask is met -/

theorem witness_PresentedTableWordRuns :
    decodeTableWord 8 0x1B = some .das ∧ decodeTableWord 5 0x10 = some .add16 := by decide

theorem witness_StepRunsDecodedInstruction : decode (ports 0x08#5 0x006E#16 0#16 0#16).op = .instr .aaa := by decide

/-- Both clauses, at the boundary function codes 12 and 11. -/
theorem witness_ReservedWordOutputs :
    12 ≤ (ports 0x0C#5 1#16 2#16 0xFFFF#16).op.toNat % 16 ∧ (ports 0x1B#5 1#16 2#16 0xFFFF#16).op.toNat % 16 < 12 := by
  decide

/-- At both ends of the range. -/
theorem witness_BcdWidthBitIgnored :
    (8 ≤ (ports 0x08#5 0#16 0#16 0#16).op.toNat % 16 ∧ (ports 0x08#5 0#16 0#16 0#16).op.toNat % 16 ≤ 11) ∧
    (8 ≤ (ports 0x1B#5 0#16 0#16 0#16).op.toNat % 16 ∧ (ports 0x1B#5 0#16 0#16 0#16).op.toNat % 16 ≤ 11) := by decide

/-- A well-formed call with the largest numerals and no Flags argument. -/
theorem witness_WellFormedCallRuns :
    ({ instr := .add16, a := 0xFFFF, b := some 0xFFFF, flags := { TF := true } } : Call).wellFormed = true ∧
    Instr.add16.takesFlags = false := by decide

/-- A form with `b` and without `F`, and one with `F` and without `b`. -/
theorem witness_ReadCallRuns :
    parseCall ['C', 'M', 'P', '8', '(', '8', '5', ',', '8', '5', ')'] =
      some { instr := .cmp8, a := 85, b := some 85 } ∧
    parseCall ['D', 'A', 'S', '(', '0', 'x', '1', 'e', ',', ' ', Char.ofNat 123, 'T', 'F', Char.ofNat 125, ')'] =
      some { instr := .das, a := 0x1E, flags := { TF := true } } := by decide

/-- The largest numerals with every flag, and a form with no Flags argument. -/
theorem witness_PrintedCallIsRead :
    (({ instr := .sbb16, a := 0xFFFF, b := some 0xFFFF, flags := ⟨true, true, true, true, true, true, true, true, true⟩ } :
      Call).wellFormed = true ∧ Instr.sbb16.takesFlags = true) ∧
    (({ instr := .neg8, a := 0 } : Call).wellFormed = true ∧ ({ instr := .neg8, a := 0 } : Call).flags = {}) := by decide

/-- Two states with equal inputs and different outputs from before. -/
theorem witness_EqualInputsGiveEqualOutputs :
    ∃ s s' : State, s ≠ s' ∧ s.op = s'.op ∧ s.a = s'.a ∧ s.b = s'.b ∧ s.flagsIn = s'.flagsIn :=
  ⟨ports 0x01#5 1#16 2#16 1#16, (ports 0x01#5 1#16 2#16 1#16).drive ⟨0#16, false, 0#16, false⟩, by decide, rfl, rfl, rfl, rfl⟩

/-- A state that shows outputs meets the invariant: V76, with its inputs. -/
theorem witness_StepKeepsPortsLegal :
    ∃ s t : State, s.out ≠ none ∧ PortsLegal s ∧ step s = .next t := by
  refine ⟨(ports 0x07#5 0x007F#16 0x0080#16 0#16).drive ⟨0x00FF#16, false, 0x0885#16, false⟩, _, by decide, ?_, rfl⟩
  intro o h
  cases h
  exact ⟨by decide, by decide, by decide, by decide, by decide, by decide, by decide⟩

theorem witness_UnnamedFlagBitsIgnoredAndClear :
    0xFFFF#16 &&& 0x0FD5#16 = (ports 0x01#5 0#16 0#16 0x0FD5#16).flagsIn &&& 0x0FD5#16 := by decide

/-- Every bit that is no status flag changed: TF, IF, DF and the unnamed positions. -/
theorem witness_ControlFlagsHaveNoEffect :
    0xF7EE#16 &&& 0x08D5#16 = (ports 0x0A#5 0x00AE#16 0#16 0x00C4#16).flagsIn &&& 0x08D5#16 := by decide

theorem witness_NarrowOperationsUseLowBytes :
    Instr.add8 ∈ [Instr.add8, .adc8, .sub8, .sbb8, .inc8, .dec8, .neg8, .cmp8, .daa, .das] ∧
    (0x12FF#16).setWidth 8 = (ports 0x00#5 0x34FF#16 0x0001#16 0#16).a.setWidth 8 ∧
    (0x5601#16).setWidth 8 = (ports 0x00#5 0x34FF#16 0x0001#16 0#16).b.setWidth 8 := by decide

theorem witness_OneOperandFormsIgnoreB :
    Instr.das ∈ [Instr.inc8, .inc16, .dec8, .dec16, .neg8, .neg16, .aaa, .aas, .daa, .das] := by decide

/-- Each of the four cases, with every bit of the input Flags changed that its operations do not read. -/
theorem witness_UnreadInputFlagsDoNotMatter :
    Instr.cmp16 ∈ [Instr.add8, .add16, .sub8, .sub16, .neg8, .neg16, .cmp8, .cmp16] ∧
    (Instr.dec16 ∈ [Instr.adc8, .adc16, .sbb8, .sbb16, .inc8, .inc16, .dec8, .dec16] ∧
      0xFFFF#16 &&& 0x0001#16 = (ports 0x15#5 0#16 0#16 0x0001#16).flagsIn &&& 0x0001#16) ∧
    (Instr.aas ∈ [Instr.aaa, .aas] ∧ 0xFFFF#16 &&& 0x0010#16 = (ports 0x19#5 0#16 0#16 0x0010#16).flagsIn &&& 0x0010#16) ∧
    (Instr.daa ∈ [Instr.daa, .das] ∧ 0xFFFF#16 &&& 0x0011#16 = (ports 0x0A#5 0#16 0#16 0x0011#16).flagsIn &&& 0x0011#16) := by
  decide

theorem witness_WriteEnableOfEachOperation :
    Instr.das ∈ [Instr.add8, .add16, .adc8, .adc16, .sub8, .sub16, .sbb8, .sbb16, .inc8, .inc16, .dec8, .dec16, .neg8,
      .neg16, .aaa, .aas, .daa, .das] ∧
    12 ≤ (ports 0x1C#5 0#16 0#16 0#16).op.toNat % 16 := by decide

/-- The sum with a carry-in, where it wraps: 0xFF + 0xFF + 1 and 0xFFFF + 0 + 1. -/
theorem witness_AdcAnswersSumWithCarry :
    (0xFF#8 = BitVec.ofNat 8 ((ports 0x01#5 0x00FF#16 0x00FF#16 1#16).a.toNat % 256 +
      (ports 0x01#5 0x00FF#16 0x00FF#16 1#16).b.toNat % 256 + (ports 0x01#5 0x00FF#16 0x00FF#16 1#16).flagsIn[0].toNat)) ∧
    (0x0000#16 = BitVec.ofNat 16 ((ports 0x11#5 0xFFFF#16 0#16 1#16).a.toNat +
      (ports 0x11#5 0xFFFF#16 0#16 1#16).b.toNat + (ports 0x11#5 0xFFFF#16 0#16 1#16).flagsIn[0].toNat)) := by decide

/-- The difference with a borrow-in, at its least: 0 - 0xFF - 1 and 0 - 0xFFFF - 1. -/
theorem witness_SbbAnswersDifferenceWithBorrow :
    (0x00#8 = BitVec.ofNat 8 ((ports 0x03#5 0#16 0x00FF#16 1#16).a.toNat % 256 + 512 -
      (ports 0x03#5 0#16 0x00FF#16 1#16).b.toNat % 256 - (ports 0x03#5 0#16 0x00FF#16 1#16).flagsIn[0].toNat)) ∧
    (0x0000#16 = BitVec.ofNat 16 ((ports 0x13#5 0#16 0xFFFF#16 1#16).a.toNat + 131072 -
      (ports 0x13#5 0#16 0xFFFF#16 1#16).b.toNat - (ports 0x13#5 0#16 0xFFFF#16 1#16).flagsIn[0].toNat)) := by decide

theorem witness_FoldAgreesOnResult : (ports 0x01#5 0#16 0xFFFF#16 0xFFFE#16).flagsIn[0] = false := by decide

/-- Equal low bytes of unequal words, and equal words. -/
theorem witness_CmpOfEqualsGivesZeroParity :
    (ports 0x07#5 0x1255#16 0x3455#16 0#16).a.setWidth 8 = (ports 0x07#5 0x1255#16 0x3455#16 0#16).b.setWidth 8 ∧
    (ports 0x17#5 0x8000#16 0x8000#16 0#16).a = (ports 0x17#5 0x8000#16 0x8000#16 0#16).b := by decide

/-- Each combination of the two steps of DAA, with AF and CF clear: none, the first, the second, both. -/
theorem witness_DaaAnswersAdjusted :
    (0x99#8).toNat = ((0x0099#16).toNat % 256 + (if lowFires (0x0099#16).toNat 0#16 then 0x06 else 0) +
      (if highFires ((0x0099#16).toNat % 256) 0#16 then 0x60 else 0)) % 256 ∧
    (0xA5#8).toNat = ((0x009F#16).toNat % 256 + (if lowFires (0x009F#16).toNat 0#16 then 0x06 else 0) +
      (if highFires ((0x009F#16).toNat % 256) 0#16 then 0x60 else 0)) % 256 ∧
    (0x00#8).toNat = ((0x00A0#16).toNat % 256 + (if lowFires (0x00A0#16).toNat 0#16 then 0x06 else 0) +
      (if highFires ((0x00A0#16).toNat % 256) 0#16 then 0x60 else 0)) % 256 ∧
    (0x14#8).toNat = ((0x00AE#16).toNat % 256 + (if lowFires (0x00AE#16).toNat 0#16 then 0x06 else 0) +
      (if highFires ((0x00AE#16).toNat % 256) 0#16 then 0x60 else 0)) % 256 := by decide

/-- Each combination of the two steps of DAS, with AF and CF clear. -/
theorem witness_DasAnswersAdjusted :
    (0x99#8).toNat = ((0x0099#16).toNat % 256 + 512 - (if lowFires (0x0099#16).toNat 0#16 then 0x06 else 0) -
      (if highFires ((0x0099#16).toNat % 256) 0#16 then 0x60 else 0)) % 256 ∧
    (0x99#8).toNat = ((0x009F#16).toNat % 256 + 512 - (if lowFires (0x009F#16).toNat 0#16 then 0x06 else 0) -
      (if highFires ((0x009F#16).toNat % 256) 0#16 then 0x60 else 0)) % 256 ∧
    (0x40#8).toNat = ((0x00A0#16).toNat % 256 + 512 - (if lowFires (0x00A0#16).toNat 0#16 then 0x06 else 0) -
      (if highFires ((0x00A0#16).toNat % 256) 0#16 then 0x60 else 0)) % 256 ∧
    (0x88#8).toNat = ((0x00EE#16).toNat % 256 + 512 - (if lowFires (0x00EE#16).toNat 0#16 then 0x06 else 0) -
      (if highFires ((0x00EE#16).toNat % 256) 0#16 then 0x60 else 0)) % 256 := by decide

/-- AF and CF clear with every other bit set, at both ends of the range 0x9A to 0x9F and on both sides of it. -/
theorem witness_DaaGivesPackedBcd :
    (ports 0x0A#5 0x0099#16 0#16 0xFFEE#16).flagsIn &&& 0x0011#16 = 0#16 ∧
    (0x9A ≤ (0x009A#16).toNat % 256 ∧ (0x009A#16).toNat % 256 ≤ 0x9F) ∧
    (0x9A ≤ (0x009F#16).toNat % 256 ∧ (0x009F#16).toNat % 256 ≤ 0x9F) ∧
    ¬(0x9A ≤ (0x0099#16).toNat % 256 ∧ (0x0099#16).toNat % 256 ≤ 0x9F) ∧
    ¬(0x9A ≤ (0x00A0#16).toNat % 256 ∧ (0x00A0#16).toNat % 256 ≤ 0x9F) := by decide

theorem witness_DasGivesPackedBcd :
    (ports 0x0B#5 0x009A#16 0#16 0xFFEE#16).flagsIn &&& 0x0011#16 = 0#16 ∧
    0x9A ≤ (0x009A#16).toNat % 256 ∧ (0x009F#16).toNat % 256 ≤ 0x9F := by decide

/-- Packed bytes whose sums are 0x99, 0x9A, 0x9F and 0xA0, and the largest pair. -/
theorem witness_PackedDecimalAddition :
    ((0x98#16).toNat < 256 ∧ (0x01#16).toNat < 256 ∧ Packed (0x98#16).toNat ∧ Packed (0x01#16).toNat) ∧
    ((0x98#16).toNat < 256 ∧ (0x02#16).toNat < 256 ∧ Packed (0x98#16).toNat ∧ Packed (0x02#16).toNat) ∧
    ((0x97#16).toNat < 256 ∧ (0x08#16).toNat < 256 ∧ Packed (0x97#16).toNat ∧ Packed (0x08#16).toNat) ∧
    ((0x90#16).toNat < 256 ∧ (0x10#16).toNat < 256 ∧ Packed (0x90#16).toNat ∧ Packed (0x10#16).toNat) ∧
    ((0x99#16).toNat < 256 ∧ (0x99#16).toNat < 256 ∧ Packed (0x99#16).toNat ∧ Packed (0x99#16).toNat) := by
  simp only [Packed]
  decide

/-- The least and the greatest difference, and equal bytes. -/
theorem witness_PackedDecimalSubtraction :
    ((0x00#16).toNat < 256 ∧ (0x99#16).toNat < 256 ∧ Packed (0x00#16).toNat ∧ Packed (0x99#16).toNat) ∧
    ((0x99#16).toNat < 256 ∧ (0x00#16).toNat < 256 ∧ Packed (0x99#16).toNat ∧ Packed (0x00#16).toNat) ∧
    ((0x25#16).toNat < 256 ∧ (0x25#16).toNat < 256 ∧ Packed (0x25#16).toNat ∧ Packed (0x25#16).toNat) := by
  simp only [Packed]
  decide

/-- The smallest and the largest digits, plain and as characters. -/
theorem witness_UnpackedDecimalAddition :
    (0 ≤ 9 ∧ 0 ≤ 9 ∧ 0x00 ∈ [0x00, 0x30] ∧ 0x00 ∈ [0x00, 0x30]) ∧
    (9 ≤ 9 ∧ 9 ≤ 9 ∧ 0x30 ∈ [0x00, 0x30] ∧ 0x30 ∈ [0x00, 0x30]) := by decide

theorem witness_UnpackedDecimalSubtraction :
    (0 ≤ 9 ∧ 9 ≤ 9 ∧ 0x30 ∈ [0x00, 0x30] ∧ 0x00 ∈ [0x00, 0x30]) ∧
    (9 ≤ 9 ∧ 0 ≤ 9 ∧ 0x00 ∈ [0x00, 0x30] ∧ 0x30 ∈ [0x00, 0x30]) := by decide

end Sys2Proof.Tests
end

section
/-! The flag word as a set of bits: it is decided by its nine named positions, and each operation on Flags values is the
bitwise operation on their words (spec/10_state.md R27-R31). -/

namespace Sys2Proof

/-- Equal under a mask is equal under every mask within it. -/
theorem and_eq_and_of_submask {v w m m' : Word} (hm : m &&& m' = m') (h : v &&& m = w &&& m) :
    v &&& m' = w &&& m' := by
  rw [← hm, ← BitVec.and_assoc, ← BitVec.and_assoc, h]

/-- Equal under a mask is equal at every bit of the mask. -/
theorem getElem_eq_of_and_eq {v w m : Word} (h : v &&& m = w &&& m) {k : Nat} (hk : k < 16) (hm : m[k] = true) :
    v[k] = w[k] := by
  simpa [hm] using congrArg (fun x : Word => x[k]) h

theorem Flag.position_lt (f : Flag) : f.position < 16 := by cases f <;> decide

/-- Every position of `NAMED_MASK` is the position of a flag (R27). -/
theorem exists_position_of_namedMask {k : Nat} (hk : namedMask.getLsbD k = true) : ∃ f : Flag, f.position = k := by
  have hpositions : ∀ k < 16, namedMask.getLsbD k = true →
      k ∈ [Flag.CF, .PF, .AF, .ZF, .SF, .TF, .IF, .DF, .OF].map Flag.position := by decide
  obtain ⟨f, -, hf⟩ := List.mem_map.mp (hpositions k (BitVec.lt_of_getLsbD hk) hk)
  exact ⟨f, hf⟩

/-- Two words with no unnamed bit are equal when they have the same bit at every flag's position. -/
theorem eq_of_named_bits {v w : Word} (hv : v &&& namedMask = v) (hw : w &&& namedMask = w)
    (h : ∀ f : Flag, v.getLsbD f.position = w.getLsbD f.position) : v = w := by
  rw [← hv, ← hw]
  refine BitVec.eq_of_getLsbD_eq fun k _ => ?_
  simp only [BitVec.getLsbD_and]
  cases hk : namedMask.getLsbD k with
  | false => simp
  | true =>
    obtain ⟨f, rfl⟩ := exists_position_of_namedMask hk
    rw [h f]

@[simp] theorem Flags.toWord_getLsbD_position (F : Flags) (f : Flag) : F.toWord.getLsbD f.position = F.mem f := by
  rw [Flags.toWord_getLsbD]
  cases f <;> simp [Flag.position, Flags.mem]

theorem Flags.bit_and_namedMask (F : Flags) (f : Flag) : F.bit f &&& namedMask = F.bit f := by
  unfold Flags.bit
  split
  · cases f <;> decide
  · rfl

/-- A flag word has no unnamed bit (R28). -/
@[simp] theorem Flags.toWord_and_namedMask (F : Flags) : F.toWord &&& namedMask = F.toWord := by
  simp only [Flags.toWord, BitVec.and_or_distrib_right, Flags.bit_and_namedMask]

@[simp] theorem Flags.ofWord_toWord (F : Flags) : Flags.ofWord F.toWord = F :=
  Flags.eq_of_mem _ _ fun f => by simp

theorem Flags.toWord_injective : Function.Injective Flags.toWord :=
  Function.LeftInverse.injective Flags.ofWord_toWord

theorem Flags.toWord_ofWord (w : Word) : (Flags.ofWord w).toWord = w &&& namedMask := by
  refine eq_of_named_bits (by simp) (by simp [BitVec.and_assoc]) fun f => ?_
  have hf : namedMask.getLsbD f.position = true := by cases f <;> decide
  simp [hf]

theorem Flags.toWord_empty : Flags.empty.toWord = 0#16 := by decide

theorem Flags.toWord_union (F G : Flags) : (F.union G).toWord = F.toWord ||| G.toWord :=
  eq_of_named_bits (by simp) (by simp [BitVec.and_or_distrib_right]) fun f => by simp

theorem Flags.toWord_inter (F G : Flags) : (F.inter G).toWord = F.toWord &&& G.toWord :=
  eq_of_named_bits (by simp) (by simp [BitVec.and_assoc]) fun f => by simp

theorem Flags.toWord_diff (F G : Flags) : (F.diff G).toWord = F.toWord &&& ~~~G.toWord := by
  refine eq_of_named_bits (by simp) ?_ fun f => ?_
  · rw [BitVec.and_assoc, BitVec.and_comm (~~~G.toWord), ← BitVec.and_assoc, Flags.toWord_and_namedMask]
  · rw [BitVec.getLsbD_and, BitVec.getLsbD_not]
    simp only [Flags.toWord_getLsbD_position, Flags.mem_diff, f.position_lt, decide_true, Bool.true_and]

/-- The status flags of a set are the bits of its word under `STATUS_MASK` (R27, R31). -/
theorem Flags.toWord_status (F : Flags) : F.status.toWord = F.toWord &&& statusMask := by
  refine eq_of_named_bits (by simp) ?_ fun f => ?_
  · rw [BitVec.and_assoc]; rfl
  · cases f <;> simp [Flag.position, statusMask]

/-- The bit of a flag word under one flag's mask is that flag's. -/
theorem Flags.toWord_and_mask (F : Flags) (f : Flag) : F.toWord &&& f.mask = F.bit f := by
  refine BitVec.eq_of_getLsbD_eq fun k _ => ?_
  rw [BitVec.getLsbD_and, Flag.mask_getLsbD, Flags.bit_getLsbD]
  by_cases hk : k = f.position
  · simp [hk]
  · simp [hk]

theorem Flags.mem_iff_toWord_and_mask (F : Flags) (f : Flag) : F.mem f = true ↔ F.toWord &&& f.mask = f.mask := by
  have hmask : 0#16 ≠ f.mask := by cases f <;> decide
  rw [Flags.toWord_and_mask, Flags.bit]
  cases F.mem f with
  | false => simp [hmask]
  | true => simp

end Sys2Proof

namespace Sys2Proof.Proofs

/-- Settles O22: each set operation is decided at the nine named positions of the word. -/
theorem flagAlgebraIsWordAlgebra : Obligations.FlagAlgebraIsWordAlgebra :=
  ⟨Flags.toWord_empty,
    fun F G => ⟨F.toWord_union G, F.toWord_inter G, F.toWord_diff G, Flags.toWord_injective.eq_iff.symm⟩,
    Flags.mem_ofMap, Flags.mem_iff_toWord_and_mask⟩

/-- Settles O23: the word of a set and the set of a word undo each other on the named bits. -/
theorem flagWordLayout : Obligations.FlagWordLayout :=
  ⟨by decide, Flags.ofWord_toWord, Flags.toWord_ofWord⟩

end Sys2Proof.Proofs
end

section
/-! What `flags_out` shows under a mask, and what one step drives on the output ports as a function of the input ports
(spec/10_state.md R20, R28, R32). -/

namespace Sys2Proof.Machine

/-- Under a mask, `flags_out` is the status under it, with the control flags it takes in (R32). -/
theorem flagsOutWord_and (S : Flags) (f m : Word) :
    flagsOutWord S f &&& m = (S.toWord &&& m) ||| (f &&& (controlMask &&& m)) := by
  rw [flagsOutWord, BitVec.and_or_distrib_right, BitVec.and_assoc]

/-- Under a mask without TF, IF and DF, `flags_out` is the status alone. -/
theorem flagsOutWord_and_of_disjoint (S : Flags) (f : Word) {m : Word} (hm : controlMask &&& m = 0#16) :
    flagsOutWord S f &&& m = S.toWord &&& m := by
  rw [flagsOutWord_and, hm, BitVec.and_zero, BitVec.or_zero]

/-- The unnamed positions of `flags_out` are 0 (R28). -/
theorem flagsOutWord_and_not_namedMask (S : Flags) (f : Word) : flagsOutWord S f &&& ~~~namedMask = 0#16 := by
  have hcontrol : controlMask &&& ~~~namedMask = 0#16 := by decide
  rw [flagsOutWord_and_of_disjoint S f hcontrol, ← S.toWord_and_namedMask, BitVec.and_assoc, BitVec.and_not_self]
  exact BitVec.and_zero

/-- What an entry point returns as status has no bit under `CONTROL_MASK` (R31). -/
theorem answerOf_status_and_controlMask (i : Instr) (s : State) :
    (answerOf i s).status.toWord &&& controlMask = 0#16 := by
  obtain ⟨hTF, hIF, hDF⟩ := answerOf_status_control i s
  have hstatus : (answerOf i s).status.status = (answerOf i s).status :=
    Flags.eq_of_mem _ _ fun f => by cases f <;> simp [Flags.mem, hTF, hIF, hDF]
  have hmasks : statusMask &&& controlMask = 0#16 := by decide
  rw [← hstatus, Flags.toWord_status, BitVec.and_assoc, hmasks, BitVec.and_zero]

/-- What one evaluation drives on the output ports (R22), whatever they showed before. -/
def stepOutputs (s : State) : Outputs :=
  match decode s.op with
  | .instr i => outputsOf s.flagsIn (answerOf i s)
  | .reserved _ => reservedOutputs s.flagsIn

theorem step_eq_drive (s : State) : step s = .next (s.drive (stepOutputs s)) := by
  unfold stepOutputs
  cases h : decode s.op with
  | instr i => exact step_of_instr h
  | reserved op => exact step_of_reserved h

theorem stepOutputs_of_instr {s : State} {i : Instr} (h : decode s.op = .instr i) :
    stepOutputs s = outputsOf s.flagsIn (answerOf i s) := by
  simp only [stepOutputs, h]

theorem stepOutputs_of_reserved {s : State} {op : Select} (h : decode s.op = .reserved op) :
    stepOutputs s = reservedOutputs s.flagsIn := by
  simp only [stepOutputs, h]

/-- The outputs are a function of `op`, `a`, `b` and the named bits of `flags_in` (R20, R28). -/
theorem stepOutputs_congr {s s' : State} (hop : s.op = s'.op) (ha : s.a = s'.a) (hb : s.b = s'.b)
    (hf : s.flagsIn &&& namedMask = s'.flagsIn &&& namedMask) : stepOutputs s = stepOutputs s' := by
  have hstatus : s.flagsIn &&& statusMask = s'.flagsIn &&& statusMask := and_eq_and_of_submask (by decide) hf
  have hcontrol : s.flagsIn &&& controlMask = s'.flagsIn &&& controlMask := and_eq_and_of_submask (by decide) hf
  cases h : decode s.op with
  | instr i =>
    rw [stepOutputs_of_instr h, stepOutputs_of_instr (hop ▸ h), answerOf_congr_status i ha hb hstatus]
    simp only [outputsOf, flagsOutWord, hcontrol]
  | reserved op =>
    rw [stepOutputs_of_reserved h, stepOutputs_of_reserved (hop ▸ h)]
    simp only [reservedOutputs, hf]

/-- TF, IF and DF pass through (R32). -/
theorem stepOutputs_flagsOut_and_controlMask (s : State) :
    (stepOutputs s).flagsOut &&& controlMask = s.flagsIn &&& controlMask := by
  cases h : decode s.op with
  | instr i =>
    rw [stepOutputs_of_instr h, outputsOf_flagsOut, flagsOutWord_and, answerOf_status_and_controlMask,
      BitVec.and_self, BitVec.zero_or]
  | reserved op =>
    rw [stepOutputs_of_reserved h, reservedOutputs, BitVec.and_assoc]
    rfl

/-- The unnamed positions are driven 0 (R28). -/
theorem stepOutputs_flagsOut_and_not_namedMask (s : State) : (stepOutputs s).flagsOut &&& ~~~namedMask = 0#16 := by
  cases h : decode s.op with
  | instr i => rw [stepOutputs_of_instr h, outputsOf_flagsOut, flagsOutWord_and_not_namedMask]
  | reserved op =>
    rw [stepOutputs_of_reserved h, reservedOutputs, BitVec.and_assoc, BitVec.and_not_self]
    exact BitVec.and_zero

end Sys2Proof.Machine

namespace Sys2Proof.Proofs

open Sys2Proof.Machine

/-- Settles O11: both steps drive what the input ports determine. -/
theorem equalInputsGiveEqualOutputs : Obligations.EqualInputsGiveEqualOutputs := by
  intro s s' hop ha hb hf
  have hout : stepOutputs s = stepOutputs s' := stepOutputs_congr hop ha hb (by rw [hf])
  exact ⟨stepOutputs s, step_eq_drive s, hout ▸ step_eq_drive s'⟩

/-- Settles O16, for legal and for reserved select words. -/
theorem controlFlagsPassThrough : Obligations.ControlFlagsPassThrough := fun s =>
  ⟨stepOutputs s, step_eq_drive s, stepOutputs_flagsOut_and_controlMask s⟩

/-- Settles O17: the outputs are determined by the named bits of `flags_in` and show named bits alone. -/
theorem unnamedFlagBitsIgnoredAndClear : Obligations.UnnamedFlagBitsIgnoredAndClear := by
  intro s f hf
  have hout : stepOutputs { s with flagsIn := f } = stepOutputs s := stepOutputs_congr rfl rfl rfl hf
  exact ⟨stepOutputs s, step_eq_drive s, hout ▸ step_eq_drive { s with flagsIn := f },
    stepOutputs_flagsOut_and_not_namedMask s⟩

end Sys2Proof.Proofs
end

section
/-! What each instruction answers, by the groups of spec/10_state.md R33, R37 and R38: the input flags it reads, the
width of its result and its write-enable; and the select words of each group (spec/30_encoding.md R63). -/

namespace Sys2Proof.Machine

/-- The instructions that read the low bytes of `a` and `b` and give an 8-bit result (R37). -/
def narrowInstrs : List Instr := [.add8, .adc8, .sub8, .sbb8, .inc8, .dec8, .neg8, .cmp8, .daa, .das]

theorem zext16_byte_lt (v : Byte) : (zext16 v).toNat < 256 := by
  rw [zext16_toNat v (by decide)]
  exact v.isLt

/-- A narrow instruction drives a zero upper byte (R37). -/
theorem answerOf_value_lt_of_narrow {i : Instr} (hi : i ∈ narrowInstrs) (s : State) :
    (answerOf i s).value.toNat < 256 := by
  unfold narrowInstrs at hi
  fin_cases hi <;> exact zext16_byte_lt _

/-- A narrow instruction reads only the low bytes of `a` and `b` (R37). -/
theorem answerOf_congr_of_narrow {i : Instr} (hi : i ∈ narrowInstrs) {s s' : State} (ha : s.opA 8 = s'.opA 8)
    (hb : s.opB 8 = s'.opB 8) (hf : s.inputFlags = s'.inputFlags) : answerOf i s = answerOf i s' := by
  unfold narrowInstrs at hi
  fin_cases hi <;> simp only [answerOf, ha, hb, hf]

/-- CMP alone gives no result to write back (R38). -/
theorem answerOf_writes (i : Instr) (s : State) : (answerOf i s).writes = decide (i ∉ [Instr.cmp8, .cmp16]) := by
  cases i <;> rfl

/-- AAA and AAS clear bits 7:4 of the result (R121, R122). -/
theorem answerOf_value_of_ascii {i : Instr} (hi : i ∈ [Instr.aaa, .aas]) (s : State) :
    (answerOf i s).value &&& 0x00F0#16 = 0#16 := by
  fin_cases hi <;> exact and_asciiMask_bits _

/-- ADD, SUB, NEG and CMP read no input flag (R33). -/
theorem answerOf_flagsIn_of_flagless {i : Instr}
    (hi : i ∈ [Instr.add8, .add16, .sub8, .sub16, .neg8, .neg16, .cmp8, .cmp16]) (s : State) (f : Word) :
    answerOf i { s with flagsIn := f } = answerOf i s := by
  fin_cases hi <;> rfl

/-- ADC, SBB, INC and DEC read CF alone (R33). -/
theorem answerOf_flagsIn_of_carry {i : Instr}
    (hi : i ∈ [Instr.adc8, .adc16, .sbb8, .sbb16, .inc8, .inc16, .dec8, .dec16]) {s : State} {f : Word}
    (hf : f[0] = s.flagsIn[0]) : answerOf i { s with flagsIn := f } = answerOf i s := by
  fin_cases hi <;>
    simp [answerOf, State.opA, State.opB, State.inputFlags, entryAdc, entrySbb, entryInc, entryDec, keepCarry, hf]

/-- The condition of the low digit reads AF alone (R121, R124). -/
theorem lowDigitFires_congr {n : Nat} (v : BitVec n) {F G : Flags} (h : F.AF = G.AF) :
    lowDigitFires v F = lowDigitFires v G := by
  rw [lowDigitFires, lowDigitFires, h]

/-- The condition of the high digit reads CF alone (R124). -/
theorem highDigitFires_congr (x : Byte) {F G : Flags} (h : F.CF = G.CF) : highDigitFires x F = highDigitFires x G := by
  rw [highDigitFires, highDigitFires, h]

/-- AAA and AAS read AF alone (R33). -/
theorem answerOf_flagsIn_of_ascii {i : Instr} (hi : i ∈ [Instr.aaa, .aas]) {s : State} {f : Word}
    (hf : f[4] = s.flagsIn[4]) : answerOf i { s with flagsIn := f } = answerOf i s := by
  have hlow := lowDigitFires_congr s.a (F := Flags.ofWord f) (G := Flags.ofWord s.flagsIn) hf
  fin_cases hi <;> simp [answerOf, State.opA, State.inputFlags, entryAaa, entryAas, hlow]

/-- The steps of DAA read AF and CF alone (R124). -/
theorem decimalUp_congr (x : Byte) {F G : Flags} (hA : F.AF = G.AF) (hC : F.CF = G.CF) :
    decimalUp x F = decimalUp x G := by
  simp only [decimalUp, lowDigitFires_congr x hA, highDigitFires_congr x hC]

/-- The steps of DAS read AF and CF alone (R125). -/
theorem decimalDown_congr (x : Byte) {F G : Flags} (hA : F.AF = G.AF) (hC : F.CF = G.CF) :
    decimalDown x F = decimalDown x G := by
  simp only [decimalDown, lowDigitFires_congr x hA, highDigitFires_congr x hC]

theorem decimalStatus_congr (x t : Byte) {F G : Flags} (hA : F.AF = G.AF) (hC : F.CF = G.CF) :
    decimalStatus x F t = decimalStatus x G t := by
  simp only [decimalStatus, lowDigitFires_congr x hA, highDigitFires_congr x hC]

/-- DAS reads AF and CF alone (R33). -/
theorem entryDas_congr (x : Byte) {F G : Flags} (hA : F.AF = G.AF) (hC : F.CF = G.CF) :
    entryDas x F = entryDas x G := by
  simp only [entryDas, decimalDown_congr x hA hC, decimalStatus_congr x _ hA hC]

/-- DAA reads AF and CF alone for its result (R33). -/
theorem entryDaa_value_congr (daaOf : Byte → Flags → Bool) (x : Byte) {F G : Flags} (hA : F.AF = G.AF)
    (hC : F.CF = G.CF) : (entryDaa daaOf x F).value = (entryDaa daaOf x G).value := by
  simp only [entryDaa, decimalUp_congr x hA hC]

/-- DAA reads AF and CF alone for every status flag but OF, which `P_DAA_OF` gives (R33, R123). -/
theorem entryDaa_status_congr (daaOf : Byte → Flags → Bool) (x : Byte) {F G : Flags} (hA : F.AF = G.AF)
    (hC : F.CF = G.CF) :
    (entryDaa daaOf x F).status.toWord &&& 0x00D5#16 = (entryDaa daaOf x G).status.toWord &&& 0x00D5#16 := by
  have hOF : ∀ c, (Flags.when .OF c).toWord &&& 0x00D5#16 = 0#16 := by decide
  simp only [entryDaa, Flags.toWord_union, BitVec.and_or_distrib_right, hOF, decimalUp_congr x hA hC,
    decimalStatus_congr x _ hA hC]

end Sys2Proof.Machine
end

section
namespace Sys2Proof.Proofs

open Sys2Proof.Machine

/-- Settles O18: a narrow instruction answers from the low bytes, with a byte. -/
theorem narrowOperationsUseLowBytes : Obligations.NarrowOperationsUseLowBytes := by
  intro i hi s a b ha hb
  have hanswer : answerOf i { s with a := a, b := b } = answerOf i s := answerOf_congr_of_narrow hi ha hb rfl
  refine ⟨outputsOf s.flagsIn (answerOf i s), exec_eq_next i s, ?_, answerOf_value_lt_of_narrow hi s⟩
  rw [← hanswer]
  exact exec_eq_next i _

/-- Settles O20: the answers are equal in the first three groups and for DAS; DAA's differ in OF alone. -/
theorem unreadInputFlagsDoNotMatter : Obligations.UnreadInputFlagsDoNotMatter := by
  intro s f i hi
  refine ⟨_, _, exec_eq_next i s, exec_eq_next i _, ?_⟩
  simp only [outputsOf_result, outputsOf_flagsOut]
  have hD5 : controlMask &&& 0x00D5#16 = 0#16 := by decide
  have h8D5 : controlMask &&& 0x08D5#16 = 0#16 := by decide
  simp only [flagsOutWord_and_of_disjoint _ _ hD5, flagsOutWord_and_of_disjoint _ _ h8D5]
  rcases hi with hi | ⟨hi, hf⟩ | ⟨hi, hf⟩ | ⟨hi, hf⟩
  · rw [answerOf_flagsIn_of_flagless hi s f]
    exact ⟨rfl, rfl, fun _ => rfl⟩
  · rw [answerOf_flagsIn_of_carry hi (getElem_eq_of_and_eq hf (by decide) rfl)]
    exact ⟨rfl, rfl, fun _ => rfl⟩
  · rw [answerOf_flagsIn_of_ascii hi (getElem_eq_of_and_eq hf (by decide) rfl)]
    exact ⟨rfl, rfl, fun _ => rfl⟩
  · have hA : (Flags.ofWord f).AF = (Flags.ofWord s.flagsIn).AF :=
      getElem_eq_of_and_eq hf (k := 4) (by decide) rfl
    have hC : (Flags.ofWord f).CF = (Flags.ofWord s.flagsIn).CF :=
      getElem_eq_of_and_eq hf (k := 0) (by decide) rfl
    rcases List.mem_pair.mp hi with rfl | rfl
    · exact ⟨(entryDaa_value_congr _ _ hA hC).symm, (entryDaa_status_congr _ _ hA hC).symm, fun h => absurd rfl h⟩
    · have hdas : answerOf .das { s with flagsIn := f } = answerOf .das s := entryDas_congr _ hA hC
      rw [hdas]
      exact ⟨rfl, rfl, fun _ => rfl⟩

/-- Settles O21: CMP and the reserved words alone give no result to write back. -/
theorem writeEnableOfEachOperation : Obligations.WriteEnableOfEachOperation := by
  refine ⟨fun i hi s => ⟨_, exec_eq_next i s, ?_⟩, fun s => ⟨_, exec_eq_next .cmp8 s, rfl, rfl⟩,
    fun s => ⟨_, exec_eq_next .cmp16 s, rfl, ?_⟩, fun s hs => ?_⟩
  · rw [outputsOf_resWe, answerOf_writes]
    fin_cases hi <;> rfl
  · simp [answerOf, entryCmp]
  · obtain ⟨op, hop⟩ := (decode_reserved_iff s.op).mpr hs
    exact ⟨_, step_of_reserved hop, rfl⟩

end Sys2Proof.Proofs
end

section
/-! The invariant of the ports: what a step drives is legal for its inputs, for each instruction's select words and for
the reserved ones. -/

namespace Sys2Proof.Machine

open Sys2Proof.Safety

theorem decode_instr_lt {op : Select} {i : Instr} (h : decode op = .instr i) : op.toNat % 16 < 12 := by
  by_contra hge
  obtain ⟨op', hres⟩ := (decode_reserved_iff op).mpr (Nat.le_of_not_lt hge)
  simp [h] at hres

theorem decode_reserved_ge {op op' : Select} (h : decode op = .reserved op') : 12 ≤ op.toNat % 16 :=
  (decode_reserved_iff op).mp ⟨op', h⟩

/-- A select word stands for one of the instructions that it is known to stand for. -/
theorem mem_of_exists_decode {op : Select} {i : Instr} {l : List Instr} (h : decode op = .instr i)
    (hl : ∃ j ∈ l, decode op = .instr j) : i ∈ l := by
  obtain ⟨j, hj, hdecode⟩ := hl
  rw [h] at hdecode
  exact Decoded.instr.inj hdecode ▸ hj

/-- The select words of the narrow instructions (R37, R63). -/
theorem decode_narrow {op : Select} {i : Instr} (h : decode op = .instr i)
    (hop : op.toNat < 8 ∨ op.toNat % 16 = 10 ∨ op.toNat % 16 = 11) : i ∈ narrowInstrs := by
  have hwords : ∀ op : Select, op.toNat < 8 ∨ op.toNat % 16 = 10 ∨ op.toNat % 16 = 11 →
      ∃ j ∈ narrowInstrs, decode op = .instr j := by decide
  exact mem_of_exists_decode h (hwords op hop)

/-- The select words of AAA and AAS (R63). -/
theorem decode_ascii {op : Select} {i : Instr} (h : decode op = .instr i)
    (hop : op.toNat % 16 = 8 ∨ op.toNat % 16 = 9) : i ∈ [Instr.aaa, .aas] := by
  have hwords : ∀ op : Select, op.toNat % 16 = 8 ∨ op.toNat % 16 = 9 →
      ∃ j ∈ [Instr.aaa, .aas], decode op = .instr j := by decide
  exact mem_of_exists_decode h (hwords op hop)

/-- The select words of CMP, function code 7 (R63). -/
theorem decode_cmp_iff {op : Select} {i : Instr} (h : decode op = .instr i) :
    i ∈ [Instr.cmp8, .cmp16] ↔ op.toNat % 16 = 7 := by
  have hwords : ∀ op : Select, (∃ j ∈ [Instr.cmp8, .cmp16], decode op = .instr j) ↔ op.toNat % 16 = 7 := by
    decide
  exact ⟨fun hi => (hwords op).mp ⟨i, hi, h⟩, fun hop => mem_of_exists_decode h ((hwords op).mpr hop)⟩

/-- What a legal operation drives is legal. -/
theorem outputsLegal_of_instr {s : State} {i : Instr} (h : decode s.op = .instr i) :
    OutputsLegal s (stepOutputs s) where
  unnamedClear := stepOutputs_flagsOut_and_not_namedMask s
  controlPasses := stepOutputs_flagsOut_and_controlMask s
  opErrReserved := by simp [stepOutputs_of_instr h, decode_instr_lt h]
  writeEnable := by
    simp only [stepOutputs_of_instr h, outputsOf_resWe, answerOf_writes, decode_cmp_iff h, decode_instr_lt h, and_true]
  narrowResult hop := by
    rw [stepOutputs_of_instr h]
    exact answerOf_value_lt_of_narrow (decode_narrow h hop) s
  asciiResult hop := by
    rw [stepOutputs_of_instr h]
    exact answerOf_value_of_ascii (decode_ascii h hop) s
  reservedOutput hop := absurd (decode_instr_lt h) (Nat.not_lt.mpr hop)

/-- What a reserved select word drives is legal (R66). -/
theorem outputsLegal_of_reserved {s : State} {op : Select} (h : decode s.op = .reserved op) :
    OutputsLegal s (stepOutputs s) where
  unnamedClear := stepOutputs_flagsOut_and_not_namedMask s
  controlPasses := stepOutputs_flagsOut_and_controlMask s
  opErrReserved := by simp [stepOutputs_of_reserved h, reservedOutputs, decode_reserved_ge h]
  writeEnable := by simp [stepOutputs_of_reserved h, reservedOutputs, decode_reserved_ge h]
  narrowResult _ := by simp [stepOutputs_of_reserved h, reservedOutputs]
  asciiResult _ := by simp [stepOutputs_of_reserved h, reservedOutputs]
  reservedOutput _ := by rw [stepOutputs_of_reserved h]; exact ⟨rfl, rfl⟩

theorem outputsLegal_stepOutputs (s : State) : OutputsLegal s (stepOutputs s) := by
  cases h : decode s.op with
  | instr i => exact outputsLegal_of_instr h
  | reserved op => exact outputsLegal_of_reserved h

/-- Legality is about the input ports, which driving the outputs leaves as they were. -/
theorem outputsLegal_drive {s : State} {o : Outputs} (o' : Outputs) (h : OutputsLegal s o) :
    OutputsLegal (s.drive o') o :=
  ⟨h.unnamedClear, h.controlPasses, h.opErrReserved, h.writeEnable, h.narrowResult, h.asciiResult, h.reservedOutput⟩

/-- A state whose outputs were just driven meets the invariant when they are legal for its inputs. -/
theorem portsLegal_drive {s : State} {o : Outputs} (h : OutputsLegal s o) : PortsLegal (s.drive o) := by
  intro o' ho'
  obtain rfl : o = o' := Option.some.inj ho'
  exact outputsLegal_drive o h

end Sys2Proof.Machine

namespace Sys2Proof.Proofs

open Sys2Proof.Machine

/-- Settles O15: a step drives new outputs, and they are legal for its inputs, whatever the ports showed before. -/
theorem stepKeepsPortsLegal : Obligations.StepKeepsPortsLegal := by
  intro s t _ hstep
  rw [step_eq_drive] at hstep
  obtain rfl : s.drive (stepOutputs s) = t := Host.Outcome.next.inj hstep
  exact portsLegal_drive (outputsLegal_stepOutputs s)

end Sys2Proof.Proofs
end

section
/-! Repeating an evaluation (spec/20_memory.md R54): the output ports are not read, so driving them changes nothing of
what the next step drives. -/

namespace Sys2Proof.Machine

/-- An evaluation does not read the output ports (R42). -/
@[simp] theorem stepOutputs_drive (s : State) (o : Outputs) : stepOutputs (s.drive o) = stepOutputs s :=
  stepOutputs_congr rfl rfl rfl rfl

/-- A step from a state whose outputs were just driven ends as a step from before them. -/
theorem step_drive (s : State) (o : Outputs) : step (s.drive o) = step s := by
  rw [step_eq_drive, step_eq_drive, stepOutputs_drive, State.drive_drive]

end Sys2Proof.Machine

namespace Sys2Proof.Proofs

open Sys2Proof.Machine

/-- Settles O12: a step drives the outputs alone, which the step after it does not read. -/
theorem evaluationIsIdempotent : Obligations.EvaluationIsIdempotent := by
  intro s
  have hstep : step s = .next (s.drive (stepOutputs s)) := step_eq_drive s
  exact ⟨s.drive (stepOutputs s), hstep, (step_drive s _).trans hstep⟩

end Sys2Proof.Proofs
end

section
/-! The two spellings of an instruction (spec/30_encoding.md R62, R63), what the decoder reads from the bits of a table
row, and what the next step then runs (R60, R66, R68). -/

namespace Sys2Proof

theorem decode_encode (i : Instr) : decode (encode i) = .instr i := by cases i <;> rfl

theorem decode_encodeAlias (i : Instr) : decode (encodeAlias i) = .instr i := by cases i <;> rfl

theorem Decoded.toInstr?_eq_some_iff {d : Decoded} {i : Instr} : d.toInstr? = some i ↔ d = .instr i := by
  cases d <;> simp [Decoded.toInstr?]

/-- A select word that decodes to an instruction is one of its two spellings: R69's table read backwards. -/
theorem eq_encode_or_eq_encodeAlias {op : Select} {i : Instr} (h : decode op = .instr i) :
    op = encode i ∨ op = encodeAlias i := by
  have hwords : ∀ op : Select, ∀ i ∈ (decode op).toInstr?, op = encode i ∨ op = encodeAlias i := by decide
  exact hwords op i (Decoded.toInstr?_eq_some_iff.mpr h)

/-- AAA, AAS, DAA and DAS alone have two spellings (R62). -/
theorem encodeAlias_eq_encode_iff (i : Instr) : encodeAlias i = encode i ↔ i ∉ [Instr.aaa, .aas, .daa, .das] := by
  cases i <;> decide

/-- What the decoder reads from the bits of a table row: no bit above bit 4, and the instruction of the low five. -/
theorem decodeTableWord_eq_some_iff {nbits w : Nat} {i : Instr} :
    decodeTableWord nbits w = some i ↔
      w % 2 ^ nbits < 32 ∧ decode (BitVec.ofNat 5 (w % 2 ^ nbits)) = .instr i := by
  simp only [decodeTableWord, selectOfBits, Option.bind_eq_some_iff, Option.ite_none_right_eq_some, Option.some.injEq,
    Decoded.toInstr?_eq_some_iff]
  constructor
  · rintro ⟨op, ⟨hlt, rfl⟩, hdecode⟩
    exact ⟨hlt, hdecode⟩
  · rintro ⟨hlt, hdecode⟩
    exact ⟨_, ⟨hlt, rfl⟩, hdecode⟩

/-- The width bit of function codes 8 to 11 is not read (R62). -/
theorem decode_flipWidth {op : Select} (h8 : 8 ≤ op.toNat % 16) (h11 : op.toNat % 16 ≤ 11) :
    decode (op ^^^ 0b10000#5) = decode op := by
  revert op
  decide

namespace Machine

/-- A step on a legal select word is `exec` of the instruction it stands for (R60). -/
theorem step_eq_exec {s : State} {i : Instr} (h : decode s.op = .instr i) : step s = exec i s :=
  (step_of_instr h).trans (exec_eq_next i s).symm

/-- Of the select word the outputs depend on the instruction it stands for alone. -/
theorem stepOutputs_op_of_instr {s : State} {op : Select} {i : Instr} (h : decode s.op = .instr i)
    (hop : decode op = .instr i) : stepOutputs { s with op := op } = stepOutputs s := by
  rw [stepOutputs_of_instr h, stepOutputs_of_instr hop]
  exact congrArg (outputsOf s.flagsIn) (answerOf_congr i rfl rfl rfl)

/-- A form without a second operand does not read `b` (R65). -/
theorem answerOf_b_of_not_takesB {i : Instr} (h : i.takesB = false) (s : State) (b : Word) :
    answerOf i { s with b := b } = answerOf i s := by
  cases i <;> cases h <;> rfl

end Machine

end Sys2Proof

namespace Sys2Proof.Proofs

open Sys2Proof.Machine

/-- Settles O2, from the two spellings and the 32 select words. -/
theorem decodeAndEncodeAgree : Obligations.DecodeAndEncodeAgree :=
  ⟨fun i => ⟨decode_encode i, decode_encodeAlias i⟩, fun _ _ => eq_encode_or_eq_encodeAlias,
    encodeAlias_eq_encode_iff⟩

/-- Settles O3: the bits the decoder takes fit port `op`, so the port carries what was decoded. -/
theorem presentedTableWordRuns : Obligations.PresentedTableWordRuns := by
  intro s nbits w i h
  obtain ⟨hlt, hdecode⟩ := decodeTableWord_eq_some_iff.mp h
  refine ⟨step_eq_exec hdecode, ?_, rfl⟩
  rw [State.withFetchWord_op, BitVec.toNat_ofNat]
  exact Nat.mod_eq_of_lt hlt

/-- Settles O5: the function code says which of the two cases of a step it is. -/
theorem reservedWordOutputs : Obligations.ReservedWordOutputs := by
  refine ⟨fun s hs => ?_, fun s hs => ?_⟩
  · obtain ⟨op, hop⟩ := (decode_reserved_iff s.op).mpr hs
    exact step_of_reserved hop
  · rcases step_cases s with ⟨i, -, hstep⟩ | ⟨op, hop, -⟩
    · exact ⟨_, hstep, outputsOf_opErr _ _⟩
    · exact absurd (decode_reserved_ge hop) (Nat.not_le.mpr hs)

/-- Settles O6: both spellings stand for one instruction. -/
theorem bcdWidthBitIgnored : Obligations.BcdWidthBitIgnored := by
  intro s h8 h11
  have hflip : decode (s.op ^^^ 0b10000#5) = decode s.op := decode_flipWidth h8 h11
  have hout : stepOutputs { s with op := s.op ^^^ 0b10000#5 } = stepOutputs s := by
    cases h : decode s.op with
    | instr i => exact stepOutputs_op_of_instr h (hflip.trans h)
    | reserved op => exact absurd (decode_reserved_ge h) (by omega)
  exact ⟨stepOutputs s, step_eq_drive s, hout ▸ step_eq_drive _⟩

/-- Settles O1, word by word. -/
theorem everySelectWordDecodes : Obligations.EverySelectWordDecodes := by
  unfold Obligations.EverySelectWordDecodes
  decide

/-- Settles O4. -/
theorem stepRunsDecodedInstruction : Obligations.StepRunsDecodedInstruction := fun _ _ => step_eq_exec

/-- Settles O19: the instructions listed are forms without a second operand. -/
theorem oneOperandFormsIgnoreB : Obligations.OneOperandFormsIgnoreB := by
  intro i hi s b
  have hform : i.takesB = false := by fin_cases hi <;> rfl
  refine ⟨outputsOf s.flagsIn (answerOf i s), exec_eq_next i s, ?_⟩
  rw [← answerOf_b_of_not_takesB hform s b]
  exact exec_eq_next i _

end Sys2Proof.Proofs
end

section
/-! NEG and CMP against SUB (spec/30_encoding.md R71). -/

namespace Sys2Proof.Machine

/-- NEG is SUB with 0 as the first operand (R71, R113). -/
theorem entryNeg_eq_entrySub {n : Nat} (a : BitVec n) : entryNeg a = entrySub 0#n a := rfl

/-- CMP is SUB without the write-back (R71, R112). -/
theorem entryCmp_eq_entrySub {n : Nat} (a b : BitVec n) : entryCmp a b = { entrySub a b with writes := false } := rfl

/-- Dropping the write-back of an answer drops it from the outputs, and nothing else. -/
theorem outputsOf_writes_false (f : Word) (ans : Answer) :
    outputsOf f { ans with writes := false } = { outputsOf f ans with resWe := false } := rfl

theorem answerOf_neg8 (s : State) : answerOf .neg8 s = answerOf .sub8 { s with a := 0#16, b := s.a } :=
  entryNeg_eq_entrySub (s.opA 8)

theorem answerOf_neg16 (s : State) : answerOf .neg16 s = answerOf .sub16 { s with a := 0#16, b := s.a } :=
  entryNeg_eq_entrySub (s.opA 16)

end Sys2Proof.Machine

namespace Sys2Proof.Proofs

open Sys2Proof.Machine

/-- Settles O40: the entry points of NEG and CMP are that of SUB, on the operands named. -/
theorem negAndCmpAreSubtractions : Obligations.NegAndCmpAreSubtractions := by
  refine ⟨fun s => ⟨_, exec_eq_next .sub8 _, ?_⟩, fun s => ⟨_, exec_eq_next .sub16 _, ?_⟩,
    fun s => ⟨_, exec_eq_next .sub8 s, ?_⟩, fun s => ⟨_, exec_eq_next .sub16 s, ?_⟩⟩
  · rw [← answerOf_neg8]
    exact exec_eq_next .neg8 s
  · rw [← answerOf_neg16]
    exact exec_eq_next .neg16 s
  · rw [← outputsOf_writes_false]
    exact exec_eq_next .cmp8 s
  · rw [← outputsOf_writes_false]
    exact exec_eq_next .cmp16 s

end Sys2Proof.Proofs
end

section
/-! The well-formed calls of spec/30_encoding.md R70: what the check asks, and what presenting such a call drives. -/

namespace Sys2Proof

theorem Flags.status_eq_empty_iff (F : Flags) :
    F.status = Flags.empty ↔ (F.CF || F.PF || F.AF || F.ZF || F.SF || F.OF) = false := by
  simp [Flags.status, Flags.empty, and_assoc]

/-- What the four checks of a well-formed call ask (R70). -/
theorem Call.wellFormed_iff (c : Call) :
    c.wellFormed = true ↔ c.a < 2 ^ 16 ∧ c.b.isSome = c.instr.takesB ∧ (∀ v, c.b = some v → v < 2 ^ 16) ∧
      (c.instr.takesFlags = false → c.flags.status = Flags.empty) := by
  have hb : c.bFits = true ↔ ∀ v, c.b = some v → v < 2 ^ 16 := by
    cases hb : c.b <;> simp [Call.bFits, hb]
  have hflags : c.flagsAllowed = true ↔ (c.instr.takesFlags = false → c.flags.status = Flags.empty) := by
    rw [Flags.status_eq_empty_iff, Call.flagsAllowed]
    cases c.instr.takesFlags <;> simp
  simp only [Call.wellFormed, Bool.and_eq_true, hb, hflags, Call.aFits, Call.bGiven, decide_eq_true_eq, beq_iff_eq,
    and_assoc]

namespace Machine

/-- The step on a presented call runs the instruction its mnemonic names, well formed or not (R60, R70). -/
theorem step_presentCall (s : State) (c : Call) : step (s.presentCall c) = exec c.instr (s.presentCall c) :=
  step_eq_exec (decode_encode c.instr)

/-- A presented call whose Flags hold no status flag drives none on `flags_in`. -/
theorem presentCall_flagsIn_and_statusMask (s : State) {c : Call} (h : c.flags.status = Flags.empty) :
    (s.presentCall c).flagsIn &&& statusMask = 0#16 := by
  rw [State.presentCall_flagsIn, ← Flags.toWord_status, h, Flags.toWord_empty]

end Machine

end Sys2Proof

namespace Sys2Proof.Proofs

open Sys2Proof.Machine

/-- Settles O7: the numerals fit their ports, and a set is the set of its word. -/
theorem wellFormedCallRuns : Obligations.WellFormedCallRuns := by
  intro s c hc
  obtain ⟨ha, -, hb, hflags⟩ := c.wellFormed_iff.mp hc
  refine ⟨step_presentCall s c, ?_, fun v hv => ?_, ?_, fun hF => presentCall_flagsIn_and_statusMask s (hflags hF)⟩
  · rw [State.presentCall_a, BitVec.toNat_ofNat, Nat.mod_eq_of_lt ha]
  · rw [State.presentCall_b, hv, Option.getD_some, BitVec.toNat_ofNat, Nat.mod_eq_of_lt (hb v hv)]
  · rw [State.presentCall_flagsIn, Flags.ofWord_toWord]

end Sys2Proof.Proofs
end

section
/-! Reading and writing the calls of spec/30_encoding.md R70: which tokens are read as a call, and that the text
written for a call is cut into such tokens. -/

namespace Sys2Proof.Machine

/-- The tokens after the last numeral of a call: a set literal of its Flags where the form has `F`, and `)` (R70). -/
def EndSpells (c : Call) (us : List Token) : Prop :=
  if c.instr.takesFlags then ∃ fs, us = .comma :: .lbrace :: fs ∧ flagsLiteral fs = some (c.flags, [.rparen])
  else us = [.rparen] ∧ c.flags = {}

/-- The tokens `ts` after the numeral for `a` are the numeral for `b`, where the form has one, and then `us` (R70). -/
def SecondSpells (c : Call) (ts us : List Token) : Prop :=
  if c.instr.takesB then ∃ vb, ts = .comma :: .word vb :: us ∧ c.b.isSome = true ∧ numeral vb = c.b
  else ts = us ∧ c.b = none

/-- The tokens of a call (R70). -/
def Spells (c : Call) (toks : List Token) : Prop :=
  ∃ va ts us, toks = .word (mnemonicOf c.instr) :: .lparen :: .word va :: ts ∧ numeral va = some c.a ∧
    SecondSpells c ts us ∧ EndSpells c us

theorem callEnd_eq_some_iff {i : Instr} {a : Nat} {b : Option Nat} {us : List Token} {c : Call} :
    callEnd i a b us = some c ↔ c.instr = i ∧ c.a = a ∧ c.b = b ∧ EndSpells c us := by
  refine ⟨callEnd_cases, ?_⟩
  rintro ⟨rfl, rfl, rfl, hend⟩
  unfold EndSpells at hend
  split at hend
  case isTrue hF =>
    obtain ⟨fs, rfl, hfs⟩ := hend
    simp [callEnd, hF, hfs]
  case isFalse hF =>
    obtain ⟨rfl, hflags⟩ := hend
    simp [callEnd, hF, ← hflags]

/-- What a list of tokens that is read as a call consists of. -/
theorem spells_of_callOfTokens {c : Call} {toks : List Token} (h : callOfTokens toks = some c) :
    Spells c toks := by
  unfold callOfTokens at h
  split at h
  case h_2 => cases h
  case h_1 m va ts =>
    obtain ⟨i, hi, hnumerals⟩ := Option.bind_eq_some_iff.mp h
    obtain ⟨a, ha, hrest⟩ := Option.bind_eq_some_iff.mp hnumerals
    obtain rfl := mnemonicOf_of_instrNamed hi
    split at hrest
    case isTrue hB =>
      split at hrest
      case h_2 => cases hrest
      case h_1 vb us =>
        obtain ⟨b, hb, hread⟩ := Option.bind_eq_some_iff.mp hrest
        obtain ⟨rfl, rfl, hcb, hend⟩ := callEnd_eq_some_iff.mp hread
        exact ⟨va, _, us, rfl, ha, by simp [SecondSpells, hB, hcb, hb], hend⟩
    case isFalse hB =>
      obtain ⟨rfl, rfl, hcb, hend⟩ := callEnd_eq_some_iff.mp hrest
      exact ⟨va, ts, ts, rfl, ha, by simp [SecondSpells, hB, hcb], hend⟩

/-- The tokens of a call are read as that call. -/
theorem callOfTokens_of_spells {c : Call} {toks : List Token} (h : Spells c toks) :
    callOfTokens toks = some c := by
  obtain ⟨va, ts, us, rfl, ha, hb, hend⟩ := h
  have hread : callEnd c.instr c.a c.b us = some c := callEnd_eq_some_iff.mpr ⟨rfl, rfl, rfl, hend⟩
  unfold SecondSpells at hb
  split at hb
  case isTrue hB =>
    obtain ⟨vb, rfl, hsome, hvb⟩ := hb
    obtain ⟨b, hcb⟩ := Option.isSome_iff_exists.mp hsome
    simpa [callOfTokens, ha, hB, hvb, hcb] using hread
  case isFalse hB =>
    obtain ⟨rfl, hcb⟩ := hb
    simpa [callOfTokens, ha, hB, hcb] using hread

/-- A list of tokens is read as a call exactly when it is the tokens of that call. -/
theorem callOfTokens_eq_some_iff {c : Call} {toks : List Token} : callOfTokens toks = some c ↔ Spells c toks :=
  ⟨spells_of_callOfTokens, callOfTokens_of_spells⟩

/-- A text that begins with punctuation, which ends the word before it. -/
def StartsPunctuated (cs : List Char) : Prop := ∃ c t rest, punctuation c = some t ∧ cs = c :: rest

/-- A word and the text after it are cut apart. -/
theorem tokens_word_append {w cs : List Char} (h : ∀ c ∈ w, Plain c) (hw : w ≠ []) (hcs : StartsPunctuated cs) :
    tokens [] (w ++ cs) = .word w :: tokens [] cs := by
  obtain ⟨c, t, rest, hc, rfl⟩ := hcs
  rw [tokens_word h hw hc, tokens_punctuation hc]
  rfl

theorem tokens_printNumeral_append (hex : Bool) (v : Nat) {cs : List Char} (hcs : StartsPunctuated cs) :
    tokens [] (printNumeral hex v ++ cs) = .word (printNumeral hex v) :: tokens [] cs :=
  tokens_word_append (printNumeral_plain hex v) (printNumeral_ne_nil hex v) hcs

/-- The separator that a written call has before each further argument. -/
theorem tokens_comma_space (cs : List Char) : tokens [] (',' :: ' ' :: cs) = .comma :: tokens [] cs := by
  have hcomma : punctuation ',' = some .comma := by decide
  rw [tokens_punctuation hcomma, tokens_space]
  rfl

/-- The text that `printCall` writes after the last numeral. -/
def printEnd (st : Style) (c : Call) : List Char :=
  (if c.instr.takesFlags then ',' :: ' ' :: printFlags st.longNames c.flags else []) ++ [')']

/-- The text that `printCall` writes after the numeral for `a`. -/
def printRest (st : Style) (c : Call) : List Char :=
  match c.b with
  | some v => ',' :: ' ' :: (printNumeral st.bHex v ++ printEnd st c)
  | none => printEnd st c

theorem printCall_eq (st : Style) (c : Call) :
    printCall st c = mnemonicOf c.instr ++ '(' :: (printNumeral st.aHex c.a ++ printRest st c) := by
  cases hb : c.b <;> simp [printCall, printRest, printEnd, hb]

theorem startsPunctuated_comma (cs : List Char) : StartsPunctuated (',' :: cs) := ⟨',', .comma, cs, by decide, rfl⟩

theorem startsPunctuated_printEnd (st : Style) (c : Call) : StartsPunctuated (printEnd st c) := by
  unfold printEnd
  split
  · exact startsPunctuated_comma _
  · exact ⟨')', .rparen, [], by decide, rfl⟩

theorem startsPunctuated_printRest (st : Style) (c : Call) : StartsPunctuated (printRest st c) := by
  unfold printRest
  split
  · exact startsPunctuated_comma _
  · exact startsPunctuated_printEnd st c

/-- The end of a written call is cut into the tokens of its end. -/
theorem endSpells_printEnd (st : Style) {c : Call} (h : c.instr.takesFlags = false → c.flags = {}) :
    EndSpells c (tokens [] (printEnd st c)) := by
  have hclose : tokens [] [')'] = [.rparen] := by decide
  unfold EndSpells printEnd
  cases hF : c.instr.takesFlags with
  | false => exact ⟨hclose, h hF⟩
  | true =>
    obtain ⟨fs, htokens, hfs⟩ := flagsLiteral_printFlags st.longNames c.flags [')']
    simp only [if_true, List.cons_append, tokens_comma_space, htokens]
    exact ⟨fs, rfl, hclose ▸ hfs⟩

/-- What is written after the numeral for `a` is cut into the numeral for `b`, where there is one, and the end. -/
theorem secondSpells_printRest (st : Style) {c : Call} (hgiven : c.b.isSome = c.instr.takesB)
    (hfits : ∀ v, c.b = some v → v < 2 ^ 16) :
    SecondSpells c (tokens [] (printRest st c)) (tokens [] (printEnd st c)) := by
  unfold SecondSpells printRest
  rw [← hgiven]
  cases hb : c.b with
  | none => exact ⟨rfl, rfl⟩
  | some v =>
    refine ⟨printNumeral st.bHex v, ?_, rfl, numeral_printNumeral st.bHex v (hfits v hb)⟩
    simp only [tokens_comma_space, tokens_printNumeral_append st.bHex v (startsPunctuated_printEnd st c)]

/-- The text written for a call is cut into the tokens of that call. -/
theorem spells_printCall (st : Style) {c : Call} (hc : c.wellFormed = true)
    (hflags : c.instr.takesFlags = false → c.flags = {}) : Spells c (tokens [] (printCall st c)) := by
  obtain ⟨ha, hgiven, hfits, -⟩ := c.wellFormed_iff.mp hc
  have hopen : punctuation '(' = some .lparen := by decide
  refine ⟨printNumeral st.aHex c.a, tokens [] (printRest st c), tokens [] (printEnd st c), ?_,
    numeral_printNumeral st.aHex c.a ha, secondSpells_printRest st hgiven hfits, endSpells_printEnd st hflags⟩
  rw [printCall_eq, tokens_word (mnemonicOf_plain c.instr) (mnemonicOf_ne_nil c.instr) hopen,
    tokens_printNumeral_append st.aHex c.a (startsPunctuated_printRest st c)]

end Sys2Proof.Machine

namespace Sys2Proof.Proofs

open Sys2Proof.Machine

/-- Settles O9: a text is read as a call when its tokens spell that call and the call is well formed. -/
theorem readCallRuns : Obligations.ReadCallRuns := by
  intro text c h
  obtain ⟨hread, hc⟩ := parseCall_eq_some_iff.mp h
  exact ⟨hc, callOfTokens_eq_some_iff.mp hread, fun s => step_presentCall s c⟩

/-- Settles O53: the text written for a call is cut into tokens that spell it. -/
theorem printedCallIsRead : Obligations.PrintedCallIsRead := fun st _ hc hflags =>
  parseCall_eq_some_iff.mpr ⟨callOfTokens_eq_some_iff.mpr (spells_printCall st hc hflags), hc⟩

/-- Settles O8, call by call. -/
theorem sourceCallsAreRead : Obligations.SourceCallsAreRead := by
  unfold Obligations.SourceCallsAreRead
  decide

end Sys2Proof.Proofs
end

section
/-! The flags of exact integer arithmetic (spec/40_flag_derivation.md R94): for addition and subtraction without a
carry-in, at every width, CF, AF and OF of the derivation against the carries and the signed range of whole numbers. -/

namespace Sys2Proof.Machine

open Sys2Proof.Safety

/-! ### One flag at a time -/

/-- Bit 3 is the upper half of the low nibble. -/
theorem getLsbD_three_eq_decide {n : Nat} (v : BitVec n) : v.getLsbD 3 = decide (8 ≤ v.toNat % 16) := by
  calc v.getLsbD 3 = (lo4 v).msb := by simp [lo4, BitVec.msb_eq_getLsbD_last]
    _ = decide (8 ≤ v.toNat % 16) := by rw [BitVec.msb_eq_decide, lo4_toNat]

/-- The low nibble of a sum is the sum of the low nibbles, where the width has a whole nibble. -/
theorem toNat_add_mod_sixteen {n : Nat} (hn : 4 ≤ n) (a b : BitVec n) :
    (a + b).toNat % 16 = (a.toNat % 16 + b.toNat % 16) % 16 := by
  have hdvd : 16 ∣ 2 ^ n := Nat.pow_dvd_pow 2 hn
  rw [BitVec.toNat_add, Nat.mod_mod_of_dvd _ hdvd, Nat.add_mod]

/-- *CF_add*: a wrapped sum is below its first operand exactly when 2^n was taken from it. -/
theorem flagCFAdd_iff_carriesOut {n : Nat} (a b : BitVec n) :
    flagCFAdd a (a + b) = true ↔ CarriesOut a b false := by
  simp only [flagCFAdd, CarriesOut, BitVec.ult_eq_decide, decide_eq_true_eq, BitVec.toNat_add, Bool.toNat_false,
    Nat.add_zero]
  have ha := a.isLt
  have hb := b.isLt
  by_cases hcarry : 2 ^ n ≤ a.toNat + b.toNat
  · rw [Nat.mod_eq_sub_mod hcarry, Nat.mod_eq_of_lt (by omega)]
    omega
  · rw [Nat.mod_eq_of_lt (by omega)]
    omega

/-- *AF_add*: the three bit-3 values give the carry of the low nibbles, with or without a carry-in. -/
theorem flagAFAdd_iff_nibbleCarries {n : Nat} {a b r : BitVec n} {c : Bool}
    (hr : r.toNat % 16 = (a.toNat % 16 + b.toNat % 16 + c.toNat) % 16) :
    flagAFAdd a b r = true ↔ NibbleCarries a b c := by
  have hc := c.toNat_le
  simp only [flagAFAdd, NibbleCarries, getLsbD_three_eq_decide, hr, Bool.or_eq_true, Bool.and_eq_true,
    Bool.not_eq_true', decide_eq_true_eq, decide_eq_false_iff_not]
  omega

/-- *OF_add*: equal operand signs and another result sign, exactly when the sum leaves the signed range. -/
theorem flagOFAdd_iff_sumOverflows {n : Nat} (a b : BitVec n) :
    flagOFAdd a b (a + b) = true ↔ SumOverflows a b false := by
  have hrule : flagOFAdd a b (a + b) = a.saddOverflow b := (BitVec.saddOverflow_eq a b).symm
  simp [hrule, BitVec.saddOverflow, SumOverflows, or_comm]

/-- *CF_sub*: the comparison of minuend and subtrahend is the borrow condition. -/
theorem flagCFSub_iff_borrowsOut {n : Nat} (a b : BitVec n) : flagCFSub a b = true ↔ BorrowsOut a b false := by
  simp [flagCFSub, BorrowsOut, BitVec.ult_eq_decide]

/-- *AF_sub*: the same comparison of the low nibbles. -/
theorem flagAFSub_iff_nibbleBorrows {n : Nat} (a b : BitVec n) : flagAFSub a b = true ↔ NibbleBorrows a b false := by
  simp [flagAFSub, NibbleBorrows, BitVec.ult_eq_decide]

/-- *OF_sub*: with different operand signs, a result sign equal to the subtrahend's is one that differs from the
minuend's. -/
theorem flagOFSub_iff_differenceOverflows {n : Nat} (a b : BitVec n) :
    flagOFSub a b (a - b) = true ↔ DifferenceOverflows a b false := by
  have hrule : flagOFSub a b (a - b) = a.ssubOverflow b := by
    rw [BitVec.ssubOverflow_eq, flagOFSub]
    cases a.msb <;> cases b.msb <;> simp
  simp [hrule, BitVec.ssubOverflow, DifferenceOverflows, or_comm]

/-! ### The outputs of an evaluation -/

@[simp] theorem carryIs_outputsOf {f : Word} {ans : Answer} {p : Prop} :
    CarryIs (outputsOf f ans) p ↔ (ans.status.CF = true ↔ p) := by simp [CarryIs]

@[simp] theorem auxIs_outputsOf {f : Word} {ans : Answer} {p : Prop} :
    AuxIs (outputsOf f ans) p ↔ (ans.status.AF = true ↔ p) := by simp [AuxIs]

@[simp] theorem overflowIs_outputsOf {f : Word} {ans : Answer} {p : Prop} :
    OverflowIs (outputsOf f ans) p ↔ (ans.status.OF = true ↔ p) := by simp [OverflowIs]

/-- CF, AF and OF of ADD, at every width that has a whole nibble. -/
theorem outputsOf_entryAdd_exact {n : Nat} (hn : 4 ≤ n) (f : Word) (a b : BitVec n) :
    CarryIs (outputsOf f (entryAdd a b)) (CarriesOut a b false) ∧
    AuxIs (outputsOf f (entryAdd a b)) (NibbleCarries a b false) ∧
    OverflowIs (outputsOf f (entryAdd a b)) (SumOverflows a b false) :=
  ⟨carryIs_outputsOf.mpr (flagCFAdd_iff_carriesOut a b),
    auxIs_outputsOf.mpr (flagAFAdd_iff_nibbleCarries (toNat_add_mod_sixteen hn a b)),
    overflowIs_outputsOf.mpr (flagOFAdd_iff_sumOverflows a b)⟩

/-- CF, AF and OF of a subtraction, at every width, whether its difference is written back (SUB) or not (CMP). -/
theorem outputsOf_entrySub_exact {n : Nat} (w : Bool) (f : Word) (a b : BitVec n) :
    CarryIs (outputsOf f { entrySub a b with writes := w }) (BorrowsOut a b false) ∧
    AuxIs (outputsOf f { entrySub a b with writes := w }) (NibbleBorrows a b false) ∧
    OverflowIs (outputsOf f { entrySub a b with writes := w }) (DifferenceOverflows a b false) :=
  ⟨carryIs_outputsOf.mpr (flagCFSub_iff_borrowsOut a b), auxIs_outputsOf.mpr (flagAFSub_iff_nibbleBorrows a b),
    overflowIs_outputsOf.mpr (flagOFSub_iff_differenceOverflows a b)⟩

/-- The value ADD answers, on numbers. -/
theorem entryAdd_value_toNat {n : Nat} (hn : n ≤ 16) (a b : BitVec n) :
    (entryAdd a b).value.toNat = (a.toNat + b.toNat) % 2 ^ n := by
  rw [entryAdd, zext16_toNat _ hn, BitVec.toNat_add]

/-- The value SUB answers, on numbers. -/
theorem entrySub_value_toNat {n : Nat} (hn : n ≤ 16) (a b : BitVec n) :
    (entrySub a b).value.toNat = (a.toNat + 2 ^ n - b.toNat) % 2 ^ n := by
  have hb := b.isLt
  rw [entrySub, zext16_toNat _ hn, BitVec.toNat_sub]
  congr 1
  omega

/-- SUB8 and CMP8 answer the same subtraction, but for the write-back (R71, R112). -/
theorem answerOf_sub8_or_cmp8 {i : Instr} (hi : i ∈ [Instr.sub8, .cmp8]) (s : State) :
    ∃ w, answerOf i s = { entrySub (s.opA 8) (s.opB 8) with writes := w } := by
  rcases List.mem_pair.mp hi with rfl | rfl
  · exact ⟨true, rfl⟩
  · exact ⟨false, entryCmp_eq_entrySub _ _⟩

/-- SUB16 and CMP16 answer the same subtraction, but for the write-back (R71, R112). -/
theorem answerOf_sub16_or_cmp16 {i : Instr} (hi : i ∈ [Instr.sub16, .cmp16]) (s : State) :
    ∃ w, answerOf i s = { entrySub s.a s.b with writes := w } := by
  rcases List.mem_pair.mp hi with rfl | rfl
  · exact ⟨true, by simp [answerOf, entrySub]⟩
  · exact ⟨false, by simp [answerOf, entryCmp_eq_entrySub]⟩

end Sys2Proof.Machine

namespace Sys2Proof.Proofs

open Sys2Proof.Machine

/-- Settles O28: the exact flags of ADD at 8 and at 16 bits. -/
theorem addFlagsAreExact : Obligations.AddFlagsAreExact := by
  refine ⟨fun s => ⟨_, exec_eq_next .add8 s, ?_, outputsOf_entryAdd_exact (by decide) _ (s.opA 8) (s.opB 8)⟩,
    fun s => ?_⟩
  · simp only [outputsOf_result, answerOf, entryAdd_value_toNat (Nat.le_add_left 8 8), opA_toNat, opB_toNat,
      Nat.reducePow]
  · have hanswer : answerOf .add16 s = entryAdd s.a s.b := by simp [answerOf]
    refine ⟨_, exec_eq_next .add16 s, ?_⟩
    rw [hanswer]
    exact ⟨entryAdd_value_toNat (by decide) s.a s.b, outputsOf_entryAdd_exact (by decide) _ s.a s.b⟩

/-- Settles O29: SUB and CMP answer one subtraction, and its flags are exact at 8 and at 16 bits. -/
theorem subAndCmpFlagsAreExact : Obligations.SubAndCmpFlagsAreExact := by
  refine ⟨fun i hi s => ?_, fun i hi s => ?_⟩
  · obtain ⟨w, hanswer⟩ := answerOf_sub8_or_cmp8 hi s
    refine ⟨_, exec_eq_next i s, ?_⟩
    rw [hanswer]
    refine ⟨?_, outputsOf_entrySub_exact w _ (s.opA 8) (s.opB 8)⟩
    simp only [outputsOf_result, entrySub_value_toNat (Nat.le_add_left 8 8), opA_toNat, opB_toNat, Nat.reducePow]
  · obtain ⟨w, hanswer⟩ := answerOf_sub16_or_cmp16 hi s
    refine ⟨_, exec_eq_next i s, ?_⟩
    rw [hanswer]
    exact ⟨entrySub_value_toNat (by decide) s.a s.b, outputsOf_entrySub_exact w _ s.a s.b⟩

end Sys2Proof.Proofs
end

section
/-! What the two-operand operations answer (spec/41_binary_arith.md): the fold of the carry-in (R100), and ADD, ADC, SUB
and SBB against the status words of Safety.lean (R101-R104). -/

namespace Sys2Proof.Machine

open Sys2Proof.Safety

/-! ### The fold -/

/-- Whichever the fold, the result is the same. -/
theorem fold_snd_eq {n : Nat} (p q : CarryInFold) (kind : FoldKind) (a b : BitVec n) (c : Bool) :
    (fold p kind a b c).2 = (fold q kind a b c).2 := by
  have hadd : a + b + carryValue n c = a + (b + carryValue n c) := BitVec.add_assoc a b (carryValue n c)
  have hsub : a - b - carryValue n c = a - (b + carryValue n c) := sub_sub a b (carryValue n c)
  cases kind <;> cases p <;> cases q <;> simp only [fold, hadd, hsub]

/-- Without a carry-in an additive fold leaves `b` and the sum. -/
theorem fold_add_false {n : Nat} (p : CarryInFold) (a b : BitVec n) : fold p .add a b false = (b, a + b) := by
  cases p <;> simp [fold, carryValue]

/-- Without a borrow-in a subtractive fold leaves `b` and the difference. -/
theorem fold_sub_false {n : Nat} (p : CarryInFold) (a b : BitVec n) : fold p .sub a b false = (b, a - b) := by
  cases p <;> simp [fold, carryValue]

/-- The result of an additive fold is the wrapped sum of three numbers. -/
theorem fold_add_snd {n : Nat} (hn : 0 < n) (p : CarryInFold) (a b : BitVec n) (c : Bool) :
    (fold p .add a b c).2 = BitVec.ofNat n (a.toNat + b.toNat + c.toNat) := by
  apply BitVec.eq_of_toNat_eq
  rw [fold_add_toNat p a b c hn, BitVec.toNat_ofNat]

/-- The result of a subtractive fold, on numbers: two powers are added, as both `b` and the borrow-in are taken away. -/
theorem fold_sub_toNat {n : Nat} (hn : 0 < n) (p : CarryInFold) (a b : BitVec n) (c : Bool) :
    (fold p .sub a b c).2.toNat = (a.toNat + 2 * 2 ^ n - b.toNat - c.toNat) % 2 ^ n := by
  have hb := b.isLt
  have hc := c.toNat_le
  rw [fold_snd_eq p .intoResult]
  simp only [fold, BitVec.toNat_sub, carryValue_toNat c hn, Nat.add_mod_mod]
  congr 1
  omega

/-- The result of a subtractive fold is the wrapped difference of three numbers. -/
theorem fold_sub_snd {n : Nat} (hn : 0 < n) (p : CarryInFold) (a b : BitVec n) (c : Bool) :
    (fold p .sub a b c).2 = BitVec.ofNat n (a.toNat + 2 * 2 ^ n - b.toNat - c.toNat) := by
  apply BitVec.eq_of_toNat_eq
  rw [fold_sub_toNat hn p a b c, BitVec.toNat_ofNat]

/-! ### The completed evaluations, at every width -/

@[simp] theorem State.inputFlags_CF (s : State) : s.inputFlags.CF = s.flagsIn[0] := rfl

/-- ADD answers the wrapped sum and the additive status word (R101). -/
theorem complete_entryAdd {n : Nat} (s : State) (a b : BitVec n) :
    s.complete (entryAdd a b) = .next (answered s (zext16 (a + b)) true (additiveStatus a b (a + b))) := by
  rw [additiveStatus_eq_derive]
  rfl

/-- SUB answers the wrapped difference and the subtractive status word (R103). -/
theorem complete_entrySub {n : Nat} (s : State) (a b : BitVec n) :
    s.complete (entrySub a b) = .next (answered s (zext16 (a - b)) true (subtractiveStatus a b (a - b))) := by
  rw [subtractiveStatus_eq_derive]
  rfl

/-- ADC answers the sum of three numbers and the additive status word on the folded operand (R102). -/
theorem complete_entryAdc {n : Nat} (hn : 0 < n) (p : CarryInFold) (s : State) {a b r : BitVec n}
    (hr : r = BitVec.ofNat n (a.toNat + b.toNat + s.flagsIn[0].toNat)) :
    s.complete (entryAdc p a b s.inputFlags) =
      .next (answered s (zext16 r) true (additiveStatus a (foldedOp2 p b s.flagsIn[0]) r)) := by
  rw [hr, ← fold_add_snd hn p, ← fold_fst p .add a b _ hn, additiveStatus_eq_derive]
  rfl

/-- SBB answers the difference of three numbers and the subtractive status word on the folded operand (R104). -/
theorem complete_entrySbb {n : Nat} (hn : 0 < n) (p : CarryInFold) (s : State) {a b r : BitVec n}
    (hr : r = BitVec.ofNat n (a.toNat + 2 * 2 ^ n - b.toNat - s.flagsIn[0].toNat)) :
    s.complete (entrySbb p a b s.inputFlags) =
      .next (answered s (zext16 r) true (subtractiveStatus a (foldedOp2 p b s.flagsIn[0]) r)) := by
  rw [hr, ← fold_sub_snd hn p, ← fold_fst p .sub a b _ hn, subtractiveStatus_eq_derive]
  rfl

/-! ### At 16 bits an operand is the whole port -/

theorem answerOf_add16 (s : State) : answerOf .add16 s = entryAdd s.a s.b := by
  simp only [answerOf, opA_word, opB_word]

theorem answerOf_adc16 (s : State) : answerOf .adc16 s = entryAdc Config.carryInFold s.a s.b s.inputFlags := by
  simp only [answerOf, opA_word, opB_word]

theorem answerOf_sub16 (s : State) : answerOf .sub16 s = entrySub s.a s.b := by
  simp only [answerOf, opA_word, opB_word]

theorem answerOf_sbb16 (s : State) : answerOf .sbb16 s = entrySbb Config.carryInFold s.a s.b s.inputFlags := by
  simp only [answerOf, opA_word, opB_word]

end Sys2Proof.Machine

namespace Sys2Proof.Proofs

open Sys2Proof.Machine

/-- Settles O24: what ADD answers, at 8 and at 16 bits. -/
theorem addAnswersSum : Obligations.AddAnswersSum := by
  refine ⟨decode_encode .add8, decode_encode .add16, fun s => complete_entryAdd s (s.opA 8) (s.opB 8), fun s => ?_⟩
  rw [exec_eq_complete, answerOf_add16, complete_entryAdd, zext16_word]

/-- Settles O26: what SUB answers, at 8 and at 16 bits. -/
theorem subAnswersDifference : Obligations.SubAnswersDifference := by
  refine ⟨decode_encode .sub8, decode_encode .sub16, fun s => complete_entrySub s (s.opA 8) (s.opB 8), fun s => ?_⟩
  rw [exec_eq_complete, answerOf_sub16, complete_entrySub, zext16_word]

/-- Settles O25: what ADC answers, at 8 and at 16 bits, for whichever fold. -/
theorem adcAnswersSumWithCarry : Obligations.AdcAnswersSumWithCarry := by
  refine ⟨decode_encode .adc8, decode_encode .adc16, fun s r hr => ?_, fun s r hr => ?_⟩
  · exact complete_entryAdc (a := s.opA 8) (b := s.opB 8) (by decide) Config.carryInFold s (by simpa using hr)
  · rw [exec_eq_complete, answerOf_adc16, complete_entryAdc (by decide) _ s hr, zext16_word]

/-- Settles O27: what SBB answers, at 8 and at 16 bits, for whichever fold. -/
theorem sbbAnswersDifferenceWithBorrow : Obligations.SbbAnswersDifferenceWithBorrow := by
  refine ⟨decode_encode .sbb8, decode_encode .sbb16, fun s r hr => ?_, fun s r hr => ?_⟩
  · exact complete_entrySbb (a := s.opA 8) (b := s.opB 8) (by decide) Config.carryInFold s (by simpa using hr)
  · rw [exec_eq_complete, answerOf_sbb16, complete_entrySbb (by decide) _ s hr, zext16_word]

end Sys2Proof.Proofs
end

section
/-! Two laws of the two-operand operations: without a carry-in ADC is ADD and SBB is SUB (spec/41_binary_arith.md R100,
R102, R104), and adding `b` gives back what subtracting it took (R103). -/

namespace Sys2Proof.Machine

/-- Without a carry-in, ADC is ADD (R102). -/
theorem entryAdc_of_CF_eq_false {n : Nat} (p : CarryInFold) (a b : BitVec n) {F : Flags} (h : F.CF = false) :
    entryAdc p a b F = entryAdd a b := by
  simp only [entryAdc, entryAdd, h, fold_add_false]

/-- Without a borrow-in, SBB is SUB (R104). -/
theorem entrySbb_of_CF_eq_false {n : Nat} (p : CarryInFold) (a b : BitVec n) {F : Flags} (h : F.CF = false) :
    entrySbb p a b F = entrySub a b := by
  simp only [entrySbb, entrySub, h, fold_sub_false]

/-- A value that was extended to the bus is read back at its own width. -/
theorem setWidth_zext16 {n : Nat} (hn : n ≤ 16) (v : BitVec n) : (zext16 v).setWidth n = v := by
  rw [zext16, BitVec.setWidth_setWidth_of_le v hn, BitVec.setWidth_eq]

/-- The low byte on the bus is the word under the low-byte mask. -/
theorem zext16_setWidth_byte (v : Word) : zext16 (v.setWidth 8) = v &&& 0x00FF#16 := by
  apply BitVec.eq_of_toNat_eq
  rw [zext16_toNat _ (by decide), BitVec.toNat_setWidth, BitVec.toNat_and]
  exact (Nat.and_two_pow_sub_one_eq_mod v.toNat 8).symm

/-- `(a -_n b) +_n b == a`, with the difference read from the bus (R103). -/
theorem entryAdd_value_of_entrySub {n : Nat} (hn : n ≤ 16) (a b : BitVec n) :
    (entryAdd ((entrySub a b).value.setWidth n) b).value = zext16 a := by
  rw [entrySub, setWidth_zext16 hn, entryAdd, BitVec.sub_add_cancel]

end Sys2Proof.Machine

namespace Sys2Proof.Proofs

open Sys2Proof.Machine Sys2Proof.Safety

/-- Settles O32: with the carry-in clear the entry points coincide, and the folds differ in op2 alone. -/
theorem foldAgreesOnResult : Obligations.FoldAgreesOnResult := by
  refine ⟨fun s hc => ?_, fun n => fold_snd_eq .intoResult .intoOp2, fun n kind a b => ?_⟩
  · have hCF : s.inputFlags.CF = false := hc
    simp only [exec_eq_complete, answerOf, entryAdc_of_CF_eq_false _ _ _ hCF, entrySbb_of_CF_eq_false _ _ _ hCF,
      and_self]
  · cases kind with
    | add => simp only [fold_add_false, and_self]
    | sub => simp only [fold_sub_false, and_self]

/-- Settles O33: the result bus of SUB is presented to ADD. -/
theorem subThenAddGivesBack : Obligations.SubThenAddGivesBack := by
  refine ⟨fun s a b f g => ⟨_, _, evaluates_of_decode (decode_encode .sub8) s a b f,
      evaluates_of_decode (decode_encode .add8) s _ b g, ?_⟩,
    fun s a b f g => ⟨_, _, evaluates_of_decode (decode_encode .sub16) s a b f,
      evaluates_of_decode (decode_encode .add16) s _ b g, ?_⟩⟩
  · rw [← zext16_setWidth_byte]
    exact entryAdd_value_of_entrySub (by decide) (a.setWidth 8) (b.setWidth 8)
  · simpa [answerOf_add16, answerOf_sub16] using entryAdd_value_of_entrySub (by decide) a b

end Sys2Proof.Proofs
end

section
/-! The flags of ADC and SBB against an exact full adder and subtractor (spec/41_binary_arith.md R100), at every width.
With no carry-in they are ADD and SUB, whose flags are exact (R94). With one, a fold into op2 makes them ADD and SUB of
the wrapped operand `b + 1`: the table is where the exact flags of that operand are not those of `b` and the carry-in.
A fold into the result is compared with the exact flags directly. -/

namespace Sys2Proof.Machine

open Sys2Proof.Safety

/-! ### The operand `b + 1`, wrapped -/

/-- The operand wraps at the largest unsigned value. -/
theorem toNat_add_one_eq_ite {n : Nat} (hn : 0 < n) (b : BitVec n) :
    (b + 1#n).toNat = if b.toNat = 2 ^ n - 1 then 0 else b.toNat + 1 := by
  have hb := b.isLt
  rw [BitVec.toNat_add, BitVec.toNat_one hn]
  split
  case isTrue hmax => rw [hmax, Nat.sub_add_cancel (by omega), Nat.mod_self]
  case isFalse hmax => exact Nat.mod_eq_of_lt (by omega)

/-- The low nibble of the operand wraps at 0xF. -/
theorem toNat_add_one_mod_sixteen {n : Nat} (hn : 4 ≤ n) (b : BitVec n) :
    (b + 1#n).toNat % 16 = if b.toNat % 16 = 15 then 0 else b.toNat % 16 + 1 := by
  rw [toNat_add_mod_sixteen hn, BitVec.toNat_one (by omega)]
  split <;> omega

/-- The bounds of the signed range. -/
theorem toInt_mem_signedRange {n : Nat} (v : BitVec n) : -2 ^ (n - 1) ≤ v.toInt ∧ v.toInt < 2 ^ (n - 1) :=
  ⟨v.le_toInt, v.toInt_lt⟩

/-- 2^n is twice the bound of the signed range. -/
theorem two_pow_eq_two_mul_half {n : Nat} (hn : 0 < n) : 2 ^ n = 2 * 2 ^ (n - 1) := by
  rw [Nat.mul_comm, Nat.two_pow_pred_mul_two hn]

/-- The bound of the signed range, as a natural number. -/
theorem natCast_half (n : Nat) : (2 : Int) ^ (n - 1) = ((2 ^ (n - 1) : Nat) : Int) := by norm_num

/-- The signed reading of a value, which goes down by 2^n from the upper half on (R17). -/
theorem toInt_eq_ite_half {n : Nat} (hn : 0 < n) (v : BitVec n) :
    v.toInt = if 2 ^ (n - 1) ≤ v.toNat then (v.toNat : Int) - 2 * 2 ^ (n - 1) else v.toNat := by
  rw [BitVec.toInt_eq_msb_cond, BitVec.msb_eq_decide, two_pow_eq_two_mul_half hn]
  simp

/-- The signed reading of the operand wraps at the largest signed value. -/
theorem toInt_add_one_eq_ite {n : Nat} (hn : 0 < n) (b : BitVec n) :
    (b + 1#n).toInt = if b.toNat = 2 ^ (n - 1) - 1 then -2 ^ (n - 1) else b.toInt + 1 := by
  have hb := b.isLt
  rw [toInt_eq_ite_half hn, toInt_eq_ite_half hn, toNat_add_one_eq_ite hn, natCast_half]
  rw [two_pow_eq_two_mul_half hn] at hb ⊢
  generalize 2 ^ (n - 1) = h at *
  split_ifs <;> omega

/-- The largest signed value reads the same with and without sign. -/
theorem toInt_eq_max_iff {n : Nat} (hn : 0 < n) (b : BitVec n) :
    b.toInt = 2 ^ (n - 1) - 1 ↔ b.toNat = 2 ^ (n - 1) - 1 := by
  have hb := b.isLt
  have hpos := Nat.two_pow_pos (n - 1)
  rw [toInt_eq_ite_half hn, natCast_half]
  rw [two_pow_eq_two_mul_half hn] at hb
  omega

/-! ### The exact flags of `b + 1` against those of `b` and a carry-in -/

theorem carriesOut_add_one_iff {n : Nat} (hn : 0 < n) (a b : BitVec n) :
    (CarriesOut a (b + 1#n) false ↔ CarriesOut a b true) ↔ b.toNat ≠ 2 ^ n - 1 := by
  have ha := a.isLt
  simp only [CarriesOut, toNat_add_one_eq_ite hn, Bool.toNat_false, Bool.toNat_true]
  split <;> omega

theorem nibbleCarries_add_one_iff {n : Nat} (hn : 4 ≤ n) (a b : BitVec n) :
    (NibbleCarries a (b + 1#n) false ↔ NibbleCarries a b true) ↔ b.toNat % 16 ≠ 15 := by
  simp only [NibbleCarries, toNat_add_one_mod_sixteen hn, Bool.toNat_false, Bool.toNat_true]
  split <;> omega

theorem sumOverflows_add_one_iff {n : Nat} (hn : 0 < n) (a b : BitVec n) :
    (SumOverflows a (b + 1#n) false ↔ SumOverflows a b true) ↔ b.toNat ≠ 2 ^ (n - 1) - 1 := by
  have ha := toInt_mem_signedRange a
  have hmax := toInt_eq_max_iff hn b
  simp only [SumOverflows, toInt_add_one_eq_ite hn, Bool.toNat_false, Bool.toNat_true]
  generalize (2 : Int) ^ (n - 1) = h at *
  split <;> omega

theorem borrowsOut_add_one_iff {n : Nat} (hn : 0 < n) (a b : BitVec n) :
    (BorrowsOut a (b + 1#n) false ↔ BorrowsOut a b true) ↔ b.toNat ≠ 2 ^ n - 1 := by
  have ha := a.isLt
  simp only [BorrowsOut, toNat_add_one_eq_ite hn, Bool.toNat_false, Bool.toNat_true]
  split <;> omega

theorem nibbleBorrows_add_one_iff {n : Nat} (hn : 4 ≤ n) (a b : BitVec n) :
    (NibbleBorrows a (b + 1#n) false ↔ NibbleBorrows a b true) ↔ b.toNat % 16 ≠ 15 := by
  simp only [NibbleBorrows, toNat_add_one_mod_sixteen hn, Bool.toNat_false, Bool.toNat_true]
  split <;> omega

theorem differenceOverflows_add_one_iff {n : Nat} (hn : 0 < n) (a b : BitVec n) :
    (DifferenceOverflows a (b + 1#n) false ↔ DifferenceOverflows a b true) ↔ b.toNat ≠ 2 ^ (n - 1) - 1 := by
  have ha := toInt_mem_signedRange a
  have hmax := toInt_eq_max_iff hn b
  simp only [DifferenceOverflows, toInt_add_one_eq_ite hn, Bool.toNat_false, Bool.toNat_true]
  generalize (2 : Int) ^ (n - 1) = h at *
  split <;> omega

/-- A borrow-in that the comparison does not see makes a difference for equal operands alone. -/
theorem borrowsOut_false_iff_true {n : Nat} (a b : BitVec n) :
    (BorrowsOut a b false ↔ BorrowsOut a b true) ↔ b ≠ a := by
  simp only [BorrowsOut, Bool.toNat_false, Bool.toNat_true, ne_eq, BitVec.toNat_eq]
  omega

theorem nibbleBorrows_false_iff_true {n : Nat} (a b : BitVec n) :
    (NibbleBorrows a b false ↔ NibbleBorrows a b true) ↔ b.toNat % 16 ≠ a.toNat % 16 := by
  simp only [NibbleBorrows, Bool.toNat_false, Bool.toNat_true]
  omega

/-! ### Signed overflow of a fold into the result -/

/-- The signed reading of a wrapped sum of three is the exact sum, or 2^n away from it. -/
theorem toInt_sum_wraps {n : Nat} (hn : 0 < n) {a b r : BitVec n} (c : Bool) (hr : r = a + b + carryValue n c) :
    r.toInt = a.toInt + b.toInt + c.toNat ∨ r.toInt + 2 * 2 ^ (n - 1) = a.toInt + b.toInt + c.toNat ∨
      r.toInt = a.toInt + b.toInt + c.toNat + 2 * 2 ^ (n - 1) := by
  have ha := a.isLt
  have hb := b.isLt
  have hc := c.toNat_le
  have hsum : r.toNat = (a.toNat + b.toNat + c.toNat) % 2 ^ n := hr ▸ fold_add_toNat .intoResult a b c hn
  simp only [toInt_eq_ite_half hn, natCast_half]
  rw [two_pow_eq_two_mul_half hn] at ha hb hsum
  generalize 2 ^ (n - 1) = h at *
  by_cases hlt : a.toNat + b.toNat + c.toNat < 2 * h
  · rw [Nat.mod_eq_of_lt hlt] at hsum
    split_ifs <;> omega
  · rw [Nat.mod_eq_sub_mod (by omega), Nat.mod_eq_of_lt (by omega)] at hsum
    split_ifs <;> omega

/-- *OF_add* with a carry-in: the operand signs agree and the result sign does not, exactly when the sum wraps. -/
theorem flagOFAdd_iff_sumOverflows_of_carry {n : Nat} (hn : 0 < n) {a b r : BitVec n} (c : Bool)
    (hr : r = a + b + carryValue n c) : flagOFAdd a b r = true ↔ SumOverflows a b c := by
  have hwrap := toInt_sum_wraps hn c hr
  have hc := c.toNat_le
  have ha := toInt_mem_signedRange a
  have hb := toInt_mem_signedRange b
  have hrange := toInt_mem_signedRange r
  simp only [flagOFAdd, SumOverflows, BitVec.msb_eq_toInt, Bool.and_eq_true, beq_iff_eq, bne_iff_ne, ne_eq,
    decide_eq_decide]
  generalize (2 : Int) ^ (n - 1) = h at *
  omega

/-- *OF_sub* with a borrow-in: the minuend is the sum of difference, subtrahend and borrow-in, and OF tells whether that
sum wraps. -/
theorem flagOFSub_iff_differenceOverflows_of_borrow {n : Nat} (hn : 0 < n) {a b r : BitVec n} (c : Bool)
    (hr : r = a - b - carryValue n c) : flagOFSub a b r = true ↔ DifferenceOverflows a b c := by
  have hwrap := toInt_sum_wraps hn (a := r) (b := b) (r := a) c (by rw [hr]; ring)
  have hc := c.toNat_le
  have ha := toInt_mem_signedRange a
  have hb := toInt_mem_signedRange b
  have hrange := toInt_mem_signedRange r
  simp only [flagOFSub, DifferenceOverflows, BitVec.msb_eq_toInt, Bool.and_eq_true, beq_iff_eq, bne_iff_ne, ne_eq,
    decide_eq_decide]
  generalize (2 : Int) ^ (n - 1) = h at *
  omega

/-! ### The table -/

/-- With no carry-in the row of ADC asks for exact flags, whichever the fold. -/
theorem sumFlagsUnderFold_false_iff {n : Nat} (p : CarryInFold) (a b : BitVec n) (o : Outputs) :
    SumFlagsUnderFold p a b false o ↔ CarryIs o (CarriesOut a b false) ∧ AuxIs o (NibbleCarries a b false) ∧
      OverflowIs o (SumOverflows a b false) := by
  cases p <;> simp [SumFlagsUnderFold]

/-- With no borrow-in the row of SBB asks for exact flags, whichever the fold. -/
theorem differenceFlagsUnderFold_false_iff {n : Nat} (p : CarryInFold) (a b : BitVec n) (o : Outputs) :
    DifferenceFlagsUnderFold p a b false o ↔ CarryIs o (BorrowsOut a b false) ∧
      AuxIs o (NibbleBorrows a b false) ∧ OverflowIs o (DifferenceOverflows a b false) := by
  cases p <;> simp [DifferenceFlagsUnderFold]

/-- With a carry-in folded into op2, ADC is ADD of `b + 1`. -/
theorem entryAdc_intoOp2_of_CF {n : Nat} (a b : BitVec n) {F : Flags} (h : F.CF = true) :
    entryAdc .intoOp2 a b F = entryAdd a (b + 1#n) := by
  simp only [entryAdc, entryAdd, fold, carryValue, h, if_true]

/-- With a borrow-in folded into op2, SBB is SUB of `b + 1`. -/
theorem entrySbb_intoOp2_of_CF {n : Nat} (a b : BitVec n) {F : Flags} (h : F.CF = true) :
    entrySbb .intoOp2 a b F = entrySub a (b + 1#n) := by
  simp only [entrySbb, entrySub, fold, carryValue, h, if_true]

/-- CF of ADC compares the result with `a`, so it does not depend on the fold. -/
theorem entryAdc_status_CF {n : Nat} (p q : CarryInFold) (a b : BitVec n) (F : Flags) :
    (entryAdc p a b F).status.CF = (entryAdc q a b F).status.CF :=
  congrArg (flagCFAdd a) (fold_snd_eq p q .add a b F.CF)

/-- The low nibble of a wrapped sum of three. -/
theorem toNat_add_add_carryValue_mod_sixteen {n : Nat} (hn : 4 ≤ n) (a b : BitVec n) (c : Bool) :
    (a + b + carryValue n c).toNat % 16 = (a.toNat % 16 + b.toNat % 16 + c.toNat) % 16 := by
  rw [toNat_add_mod_sixteen hn, toNat_add_mod_sixteen hn, carryValue_toNat c (by omega)]
  omega

/-- AF of ADC under a fold into the result is exact. -/
theorem entryAdc_intoResult_AF_iff {n : Nat} (hn : 4 ≤ n) (a b : BitVec n) (F : Flags) :
    (entryAdc .intoResult a b F).status.AF = true ↔ NibbleCarries a b F.CF :=
  flagAFAdd_iff_nibbleCarries (toNat_add_add_carryValue_mod_sixteen hn a b F.CF)

/-- OF of ADC under a fold into the result is exact. -/
theorem entryAdc_intoResult_OF_iff {n : Nat} (hn : 0 < n) (a b : BitVec n) (F : Flags) :
    (entryAdc .intoResult a b F).status.OF = true ↔ SumOverflows a b F.CF :=
  flagOFAdd_iff_sumOverflows_of_carry hn F.CF rfl

/-- OF of SBB under a fold into the result is exact. -/
theorem entrySbb_intoResult_OF_iff {n : Nat} (hn : 0 < n) (a b : BitVec n) (F : Flags) :
    (entrySbb .intoResult a b F).status.OF = true ↔ DifferenceOverflows a b F.CF :=
  flagOFSub_iff_differenceOverflows_of_borrow hn F.CF rfl

/-- The row of ADC, at every width that has a whole nibble. -/
theorem sumFlagsUnderFold_entryAdc {n : Nat} (hn : 4 ≤ n) (p : CarryInFold) (f : Word) (a b : BitVec n) (F : Flags) :
    SumFlagsUnderFold p a b F.CF (outputsOf f (entryAdc p a b F)) := by
  have hpos : 0 < n := by omega
  cases hc : F.CF with
  | false =>
    rw [entryAdc_of_CF_eq_false p a b hc, sumFlagsUnderFold_false_iff]
    exact outputsOf_entryAdd_exact hn f a b
  | true =>
    obtain ⟨hCF, hAF, hOF⟩ := outputsOf_entryAdd_exact hn f a (b + 1#n)
    cases p with
    | intoResult =>
      simp only [SumFlagsUnderFold, true_and, carryIs_outputsOf, auxIs_outputsOf, overflowIs_outputsOf,
        entryAdc_intoResult_AF_iff hn, entryAdc_intoResult_OF_iff hpos, hc, and_true,
        entryAdc_status_CF .intoResult .intoOp2, entryAdc_intoOp2_of_CF a b hc]
      exact (iff_congr (carryIs_outputsOf.mp hCF) .rfl).trans (carriesOut_add_one_iff hpos a b)
    | intoOp2 =>
      simp only [SumFlagsUnderFold, true_and, entryAdc_intoOp2_of_CF a b hc]
      exact ⟨(iff_congr hCF .rfl).trans (carriesOut_add_one_iff hpos a b),
        (iff_congr hAF .rfl).trans (nibbleCarries_add_one_iff hn a b),
        (iff_congr hOF .rfl).trans (sumOverflows_add_one_iff hpos a b)⟩

/-- The row of SBB, at every width that has a whole nibble. -/
theorem differenceFlagsUnderFold_entrySbb {n : Nat} (hn : 4 ≤ n) (p : CarryInFold) (f : Word) (a b : BitVec n)
    (F : Flags) : DifferenceFlagsUnderFold p a b F.CF (outputsOf f (entrySbb p a b F)) := by
  have hpos : 0 < n := by omega
  cases hc : F.CF with
  | false =>
    rw [entrySbb_of_CF_eq_false p a b hc, differenceFlagsUnderFold_false_iff]
    exact outputsOf_entrySub_exact true f a b
  | true =>
    cases p with
    | intoResult =>
      simp only [DifferenceFlagsUnderFold, true_and, carryIs_outputsOf, auxIs_outputsOf, overflowIs_outputsOf,
        entrySbb_intoResult_OF_iff hpos, hc, and_true]
      exact ⟨(iff_congr (flagCFSub_iff_borrowsOut a b) .rfl).trans (borrowsOut_false_iff_true a b),
        (iff_congr (flagAFSub_iff_nibbleBorrows a b) .rfl).trans (nibbleBorrows_false_iff_true a b)⟩
    | intoOp2 =>
      obtain ⟨hCF, hAF, hOF⟩ := outputsOf_entrySub_exact true f a (b + 1#n)
      simp only [DifferenceFlagsUnderFold, true_and, entrySbb_intoOp2_of_CF a b hc]
      exact ⟨(iff_congr hCF .rfl).trans (borrowsOut_add_one_iff hpos a b),
        (iff_congr hAF .rfl).trans (nibbleBorrows_add_one_iff hn a b),
        (iff_congr hOF .rfl).trans (differenceOverflows_add_one_iff hpos a b)⟩

end Sys2Proof.Machine

namespace Sys2Proof.Proofs

open Sys2Proof.Machine

/-- Settles O30: the row of ADC, at 8 and at 16 bits. -/
theorem adcFlagsAgainstExactAdder : Obligations.AdcFlagsAgainstExactAdder := by
  refine ⟨fun s => ⟨_, exec_eq_next .adc8 s, sumFlagsUnderFold_entryAdc (by decide) _ _ _ _ s.inputFlags⟩,
    fun s => ⟨_, exec_eq_next .adc16 s, ?_⟩⟩
  rw [answerOf_adc16]
  exact sumFlagsUnderFold_entryAdc (by decide) _ _ _ _ s.inputFlags

/-- Settles O31: the row of SBB, at 8 and at 16 bits. -/
theorem sbbFlagsAgainstExactSubtractor : Obligations.SbbFlagsAgainstExactSubtractor := by
  refine ⟨fun s => ⟨_, exec_eq_next .sbb8 s, differenceFlagsUnderFold_entrySbb (by decide) _ _ _ _ s.inputFlags⟩,
    fun s => ⟨_, exec_eq_next .sbb16 s, ?_⟩⟩
  rw [answerOf_sbb16]
  exact differenceFlagsUnderFold_entrySbb (by decide) _ _ _ _ s.inputFlags

end Sys2Proof.Proofs
end

section
/-! What INC, DEC, CMP and NEG answer against the status words of Safety.lean (spec/42_inc_dec_cmp_neg.md R110-R113):
INC and DEC are ADD and SUB of 1 with CF from the input Flags, CMP and NEG are subtractions. -/

namespace Sys2Proof.Machine

open Sys2Proof.Safety

/-! ### CF carried over from the input Flags (R110, R111) -/

@[simp] theorem keepCarry_CF (S F : Flags) : (keepCarry S F).CF = F.CF := by simp [keepCarry]
@[simp] theorem keepCarry_AF (S F : Flags) : (keepCarry S F).AF = S.AF := by simp [keepCarry]
@[simp] theorem keepCarry_OF (S F : Flags) : (keepCarry S F).OF = S.OF := by simp [keepCarry]

/-- The derivation returns status flags only (R31). -/
@[simp] theorem derive_status {n : Nat} (cat : Category) (op1 op2 r : BitVec n) :
    (derive cat op1 op2 r).status = derive cat op1 op2 r := by cases cat <;> rfl

/-- `{CF}` is `CF_MASK` (R27). -/
theorem toWord_carry : Flags.toWord { CF := true } = 0x0001#16 := by decide

/-- `{ CF | flags_in.CF }` is bit 0 of `flags_in`. -/
theorem toWord_when_CF (f : Word) : (Flags.when .CF (Flags.ofWord f).CF).toWord = f &&& 0x0001#16 := by
  have hset : Flags.when .CF (Flags.ofWord f).CF = (Flags.ofWord f).inter { CF := true } :=
    Flags.eq_of_mem _ _ fun g => by cases g <;> simp [Flags.mem]
  rw [hset, Flags.toWord_inter, Flags.toWord_ofWord, toWord_carry, BitVec.and_assoc]
  rfl

/-- Keeping the carry replaces bit 0 of the status word by that of `flags_in`. -/
theorem toWord_keepCarry {S : Flags} (hS : S.status = S) (f : Word) :
    (keepCarry S (Flags.ofWord f)).toWord = (S.toWord &&& 0x08D4#16) ||| (f &&& 0x0001#16) := by
  have hdiff : S.toWord &&& ~~~(0x0001#16) = S.toWord &&& 0x08D4#16 := by
    rw [← hS, Flags.toWord_status, BitVec.and_assoc, BitVec.and_assoc]
    rfl
  rw [keepCarry, Flags.toWord_union, Flags.toWord_diff, toWord_when_CF, toWord_carry, hdiff]

/-! ### The completed evaluations, at every width -/

/-- INC answers the wrapped successor and the additive status word with CF kept (R110). -/
theorem complete_entryInc {n : Nat} (s : State) (a : BitVec n) :
    s.complete (entryInc a s.inputFlags) = .next (answered s (zext16 (a + 1#n)) true
      ((additiveStatus a 1#n (a + 1#n) &&& 0x08D4#16) ||| (s.flagsIn &&& 0x0001#16))) := by
  rw [additiveStatus_eq_derive, ← toWord_keepCarry (derive_status ..)]
  rfl

/-- DEC answers the wrapped predecessor and the subtractive status word with CF kept (R111). -/
theorem complete_entryDec {n : Nat} (s : State) (a : BitVec n) :
    s.complete (entryDec a s.inputFlags) = .next (answered s (zext16 (a - 1#n)) true
      ((subtractiveStatus a 1#n (a - 1#n) &&& 0x08D4#16) ||| (s.flagsIn &&& 0x0001#16))) := by
  rw [subtractiveStatus_eq_derive, ← toWord_keepCarry (derive_status ..)]
  rfl

/-- CMP answers what SUB does, without the write-back (R112). -/
theorem complete_entryCmp {n : Nat} (s : State) (a b : BitVec n) :
    s.complete (entryCmp a b) = .next (answered s (zext16 (a - b)) false (subtractiveStatus a b (a - b))) := by
  rw [subtractiveStatus_eq_derive]
  rfl

/-- NEG answers the two's-complement negation and the subtractive status word of `0 - a` (R113). -/
theorem complete_entryNeg {n : Nat} (s : State) (a : BitVec n) :
    s.complete (entryNeg a) = .next (answered s (zext16 (-a)) true (subtractiveStatus 0#n a (-a))) := by
  rw [entryNeg_eq_entrySub, complete_entrySub, BitVec.zero_sub]

/-! ### At 16 bits an operand is the whole port -/

theorem answerOf_inc16 (s : State) : answerOf .inc16 s = entryInc s.a s.inputFlags := by
  simp only [answerOf, opA_word]

theorem answerOf_dec16 (s : State) : answerOf .dec16 s = entryDec s.a s.inputFlags := by
  simp only [answerOf, opA_word]

theorem answerOf_cmp16 (s : State) : answerOf .cmp16 s = entryCmp s.a s.b := by
  simp only [answerOf, opA_word, opB_word]

theorem answerOf_neg16_eq_entryNeg (s : State) : answerOf .neg16 s = entryNeg s.a := by
  simp only [answerOf, opA_word]

end Sys2Proof.Machine

namespace Sys2Proof.Proofs

open Sys2Proof.Machine

/-- Settles O34: what INC answers, at 8 and at 16 bits. -/
theorem incAnswersSuccessor : Obligations.IncAnswersSuccessor := by
  refine ⟨decode_encode .inc8, decode_encode .inc16, fun s => complete_entryInc s (s.opA 8), fun s => ?_⟩
  rw [exec_eq_complete, answerOf_inc16, complete_entryInc, zext16_word]

/-- Settles O35: what DEC answers, at 8 and at 16 bits. -/
theorem decAnswersPredecessor : Obligations.DecAnswersPredecessor := by
  refine ⟨decode_encode .dec8, decode_encode .dec16, fun s => complete_entryDec s (s.opA 8), fun s => ?_⟩
  rw [exec_eq_complete, answerOf_dec16, complete_entryDec, zext16_word]

/-- Settles O36: what CMP answers, at 8 and at 16 bits. -/
theorem cmpAnswersFlagsOnly : Obligations.CmpAnswersFlagsOnly := by
  refine ⟨decode_encode .cmp8, decode_encode .cmp16, fun s => complete_entryCmp s (s.opA 8) (s.opB 8), fun s => ?_⟩
  rw [exec_eq_complete, answerOf_cmp16, complete_entryCmp, zext16_word]

/-- Settles O37: what NEG answers, at 8 and at 16 bits. -/
theorem negAnswersNegation : Obligations.NegAnswersNegation := by
  refine ⟨decode_encode .neg8, decode_encode .neg16, fun s => complete_entryNeg s (s.opA 8), fun s => ?_⟩
  rw [exec_eq_complete, answerOf_neg16_eq_entryNeg, complete_entryNeg, zext16_word]

end Sys2Proof.Proofs
end

section
/-! CF, AF and OF of INC, DEC, NEG and CMP by the operand (spec/42_inc_dec_cmp_neg.md R110-R113): the exact conditions
of ADD and SUB (R94) where one operand is the constant 1 or 0, and where the operands are equal. -/

namespace Sys2Proof.Machine

open Sys2Proof.Safety

/-! ### The exact conditions with a constant operand -/

/-- The smallest signed value, read with and without sign. -/
theorem toInt_eq_min_iff {n : Nat} (hn : 0 < n) (a : BitVec n) : a.toInt = -2 ^ (n - 1) ↔ a.toNat = 2 ^ (n - 1) := by
  have ha := a.isLt
  rw [toInt_eq_ite_half hn, natCast_half]
  rw [two_pow_eq_two_mul_half hn] at ha
  omega

/-- Adding 1 carries out of the low nibble at 0xF alone. -/
theorem nibbleCarries_one_iff {n : Nat} (hn : 0 < n) (a : BitVec n) :
    NibbleCarries a 1#n false ↔ a.toNat % 16 = 15 := by
  simp only [NibbleCarries, BitVec.toNat_one hn, Bool.toNat_false]
  omega

/-- Adding 1 overflows at the largest signed value alone. -/
theorem sumOverflows_one_iff {n : Nat} (hn : 1 < n) (a : BitVec n) :
    SumOverflows a 1#n false ↔ a.toNat = 2 ^ (n - 1) - 1 := by
  have ha := toInt_mem_signedRange a
  rw [← toInt_eq_max_iff (by omega) a]
  simp only [SumOverflows, BitVec.toInt_one hn, Bool.toNat_false]
  generalize (2 : Int) ^ (n - 1) = h at *
  omega

/-- Taking 1 away borrows into the low nibble at 0 alone. -/
theorem nibbleBorrows_one_iff {n : Nat} (hn : 0 < n) (a : BitVec n) :
    NibbleBorrows a 1#n false ↔ a.toNat % 16 = 0 := by
  simp only [NibbleBorrows, BitVec.toNat_one hn, Bool.toNat_false]
  omega

/-- Taking 1 away overflows at the smallest signed value alone. -/
theorem differenceOverflows_one_iff {n : Nat} (hn : 1 < n) (a : BitVec n) :
    DifferenceOverflows a 1#n false ↔ a.toNat = 2 ^ (n - 1) := by
  have ha := toInt_mem_signedRange a
  rw [← toInt_eq_min_iff (by omega) a]
  simp only [DifferenceOverflows, BitVec.toInt_one hn, Bool.toNat_false]
  generalize (2 : Int) ^ (n - 1) = h at *
  omega

/-- Negation borrows unless the operand is 0. -/
theorem borrowsOut_zero_left_iff {n : Nat} (a : BitVec n) : BorrowsOut 0#n a false ↔ a.toNat ≠ 0 := by
  simp [BorrowsOut, Nat.pos_iff_ne_zero]

/-- Negation borrows into the low nibble unless that of the operand is 0. -/
theorem nibbleBorrows_zero_left_iff {n : Nat} (a : BitVec n) : NibbleBorrows 0#n a false ↔ a.toNat % 16 ≠ 0 := by
  simp [NibbleBorrows, Nat.pos_iff_ne_zero]

/-- Negation overflows at the smallest signed value alone. -/
theorem differenceOverflows_zero_left_iff {n : Nat} (hn : 0 < n) (a : BitVec n) :
    DifferenceOverflows 0#n a false ↔ a.toNat = 2 ^ (n - 1) := by
  have ha := toInt_mem_signedRange a
  rw [← toInt_eq_min_iff hn a]
  simp only [DifferenceOverflows, BitVec.toInt_zero, Bool.toNat_false]
  generalize (2 : Int) ^ (n - 1) = h at *
  omega

/-! ### The flags of each operation, at every width that has a whole nibble -/

/-- AF and OF of INC are those of ADD of 1; CF is that of the input Flags. -/
theorem outputsOf_entryInc_corners {n : Nat} (hn : 4 ≤ n) (f : Word) (a : BitVec n) (F : Flags) :
    CarryIs (outputsOf f (entryInc a F)) (F.CF = true) ∧
    AuxIs (outputsOf f (entryInc a F)) (a.toNat % 16 = 15) ∧
    OverflowIs (outputsOf f (entryInc a F)) (a.toNat = 2 ^ (n - 1) - 1) := by
  obtain ⟨-, hAF, hOF⟩ := outputsOf_entryAdd_exact hn f a 1#n
  rw [nibbleCarries_one_iff (by omega)] at hAF
  rw [sumOverflows_one_iff (by omega)] at hOF
  simp only [auxIs_outputsOf, overflowIs_outputsOf, entryAdd] at hAF hOF
  simp only [carryIs_outputsOf, auxIs_outputsOf, overflowIs_outputsOf, entryInc, keepCarry_CF, keepCarry_AF,
    keepCarry_OF, hAF, hOF, and_self]

/-- AF and OF of DEC are those of SUB of 1; CF is that of the input Flags. -/
theorem outputsOf_entryDec_corners {n : Nat} (hn : 4 ≤ n) (f : Word) (a : BitVec n) (F : Flags) :
    CarryIs (outputsOf f (entryDec a F)) (F.CF = true) ∧
    AuxIs (outputsOf f (entryDec a F)) (a.toNat % 16 = 0) ∧
    OverflowIs (outputsOf f (entryDec a F)) (a.toNat = 2 ^ (n - 1)) := by
  obtain ⟨-, hAF, hOF⟩ := outputsOf_entrySub_exact true f a 1#n
  rw [nibbleBorrows_one_iff (by omega)] at hAF
  rw [differenceOverflows_one_iff (by omega)] at hOF
  simp only [auxIs_outputsOf, overflowIs_outputsOf, entrySub] at hAF hOF
  simp only [carryIs_outputsOf, auxIs_outputsOf, overflowIs_outputsOf, entryDec, keepCarry_CF, keepCarry_AF,
    keepCarry_OF, hAF, hOF, and_self]

/-- CF, AF and OF of NEG are those of SUB from 0. -/
theorem outputsOf_entryNeg_corners {n : Nat} (hn : 0 < n) (f : Word) (a : BitVec n) :
    CarryIs (outputsOf f (entryNeg a)) (a.toNat ≠ 0) ∧
    AuxIs (outputsOf f (entryNeg a)) (a.toNat % 16 ≠ 0) ∧
    OverflowIs (outputsOf f (entryNeg a)) (a.toNat = 2 ^ (n - 1)) := by
  rw [← borrowsOut_zero_left_iff, ← nibbleBorrows_zero_left_iff, ← differenceOverflows_zero_left_iff hn]
  exact outputsOf_entrySub_exact true f 0#n a

/-- CF of CMP is the unsigned comparison. -/
theorem carryIs_entryCmp {n : Nat} (f : Word) (a b : BitVec n) :
    CarryIs (outputsOf f (entryCmp a b)) (a.toNat < b.toNat) :=
  (outputsOf_entrySub_exact false f a b).1

/-- The difference of equal operands has ZF and PF, and no other flag. -/
theorem subtractiveStatus_self {n : Nat} (a : BitVec n) : subtractiveStatus a a 0#n = 0x0044#16 := by
  have hparity : evenParity 0#n = true := by simp [evenParity]
  simp [subtractiveStatus, statusWord, hparity]

/-- Comparing a value with itself answers 0 with ZF and PF, and writes nothing back (C3). -/
theorem complete_entryCmp_self {n : Nat} (s : State) (a : BitVec n) :
    s.complete (entryCmp a a) = .next (answered s 0#16 false 0x0044#16) := by
  rw [complete_entryCmp, BitVec.sub_self, subtractiveStatus_self]
  simp [zext16]

/-! ### At 8 bits an operand is the low byte of the port -/

theorem opA_byte_toNat (s : State) : (s.opA 8).toNat = s.a.toNat % 256 := opA_toNat s 8

theorem opB_byte_toNat (s : State) : (s.opB 8).toNat = s.b.toNat % 256 := opB_toNat s 8

/-- The low nibble of the byte operand is that of the port. -/
theorem opA_byte_toNat_mod_sixteen (s : State) : (s.opA 8).toNat % 16 = s.a.toNat % 16 := by
  rw [opA_byte_toNat]
  exact Nat.mod_mod_of_dvd _ (by decide)

end Sys2Proof.Machine

namespace Sys2Proof.Proofs

open Sys2Proof.Machine

/-- Settles O38: the corners of INC and DEC, at 8 and at 16 bits. -/
theorem incDecFlagCorners : Obligations.IncDecFlagCorners := by
  refine ⟨fun s => ⟨_, exec_eq_next .inc8 s, ?_⟩, fun s => ⟨_, exec_eq_next .inc16 s, ?_⟩,
    fun s => ⟨_, exec_eq_next .dec8 s, ?_⟩, fun s => ⟨_, exec_eq_next .dec16 s, ?_⟩⟩
  · rw [← opA_byte_toNat_mod_sixteen s, ← opA_byte_toNat s]
    exact outputsOf_entryInc_corners (by decide) s.flagsIn (s.opA 8) s.inputFlags
  · rw [answerOf_inc16]
    exact outputsOf_entryInc_corners (by decide) s.flagsIn s.a s.inputFlags
  · rw [← opA_byte_toNat_mod_sixteen s, ← opA_byte_toNat s]
    exact outputsOf_entryDec_corners (by decide) s.flagsIn (s.opA 8) s.inputFlags
  · rw [answerOf_dec16]
    exact outputsOf_entryDec_corners (by decide) s.flagsIn s.a s.inputFlags

/-- Settles O39: the corners of NEG, at 8 and at 16 bits. -/
theorem negFlagCorners : Obligations.NegFlagCorners := by
  refine ⟨fun s => ⟨_, exec_eq_next .neg8 s, ?_⟩, fun s => ⟨_, exec_eq_next .neg16 s, ?_⟩⟩
  · rw [← opA_byte_toNat_mod_sixteen s, ← opA_byte_toNat s]
    exact outputsOf_entryNeg_corners (by decide) s.flagsIn (s.opA 8)
  · rw [answerOf_neg16_eq_entryNeg]
    exact outputsOf_entryNeg_corners (by decide) s.flagsIn s.a

/-- Settles O41: comparing equals, and the unsigned comparison, at 8 and at 16 bits. -/
theorem cmpOfEqualsGivesZeroParity : Obligations.CmpOfEqualsGivesZeroParity := by
  refine ⟨fun s h => ?_, fun s h => ?_, fun s => ⟨_, exec_eq_next .cmp8 s, ?_⟩,
    fun s => ⟨_, exec_eq_next .cmp16 s, ?_⟩⟩
  · have hab : s.opA 8 = s.opB 8 := h
    rw [exec_eq_complete, answerOf, hab, complete_entryCmp_self]
  · rw [exec_eq_complete, answerOf_cmp16, h, complete_entryCmp_self]
  · rw [← opA_byte_toNat s, ← opB_byte_toNat s]
    exact carryIs_entryCmp s.flagsIn (s.opA 8) (s.opB 8)
  · rw [answerOf_cmp16]
    exact carryIs_entryCmp s.flagsIn s.a s.b

end Sys2Proof.Proofs
end

section
/-! What the four BCD adjustments answer against the numbers and status words of Safety.lean, for whichever adjustment
and whichever `daa_of` the block has (spec/43_bcd_adjust.md R120-R125). -/

namespace Sys2Proof.Machine

open Sys2Proof.Safety

/-! ### AAA and AAS -/

/-- AAA's adjustment is the word of the adjusted number (R120). -/
theorem adjustUp_eq_ofNat (p : AaxAdjust) (acc : Word) : adjustUp p acc = BitVec.ofNat 16 (adjustedUp p acc.toNat) := by
  rw [← adjustUp_toNat, BitVec.ofNat_toNat, BitVec.setWidth_eq]

/-- AAS's adjustment is the word of the adjusted number (R120). -/
theorem adjustDown_eq_ofNat (p : AaxAdjust) (acc : Word) :
    adjustDown p acc = BitVec.ofNat 16 (adjustedDown p acc.toNat) := by
  rw [← adjustDown_toNat, BitVec.ofNat_toNat, BitVec.setWidth_eq]

/-- The flags of AAA and AAS: AF and CF together, or none (R121, R122). -/
theorem toWord_AF_CF (c : Bool) : Flags.toWord { AF := c, CF := c } = if c then 0x0011#16 else 0#16 := by
  cases c <;> decide

/-- An ASCII adjustment completes with the masked word that its condition `c` picks, and with AF and CF set by it. -/
theorem complete_asciiAdjusted (s : State) (c : Bool) (v w : Word) :
    s.complete { value := (if c then v else w) &&& asciiMask, writes := true, status := { AF := c, CF := c } } =
      .next (if c then answered s (v &&& 0xFF0F#16) true 0x0011#16 else answered s (w &&& 0xFF0F#16) true 0#16) := by
  rw [State.complete, ← answered_eq_drive, toWord_AF_CF]
  cases c <;> rfl

/-- AAA answers the accumulator adjusted up where the low digit fires, and else the accumulator, masked (R121). -/
theorem complete_entryAaa (p : AaxAdjust) (s : State) :
    s.complete (entryAaa p s.a s.inputFlags) = .next (if lowFires s.a.toNat s.flagsIn
      then answered s (BitVec.ofNat 16 (adjustedUp p s.a.toNat) &&& 0xFF0F#16) true 0x0011#16
      else answered s (s.a &&& 0xFF0F#16) true 0#16) := by
  rw [← adjustUp_eq_ofNat, ← lowDigitFires_eq]
  exact complete_asciiAdjusted s _ _ _

/-- AAS answers the accumulator adjusted down where the low digit fires, and else the accumulator, masked (R122). -/
theorem complete_entryAas (p : AaxAdjust) (s : State) :
    s.complete (entryAas p s.a s.inputFlags) = .next (if lowFires s.a.toNat s.flagsIn
      then answered s (BitVec.ofNat 16 (adjustedDown p s.a.toNat) &&& 0xFF0F#16) true 0x0011#16
      else answered s (s.a &&& 0xFF0F#16) true 0#16) := by
  rw [← adjustDown_eq_ofNat, ← lowDigitFires_eq]
  exact complete_asciiAdjusted s _ _ _

/-- AAA works on the whole port. -/
theorem answerOf_aaa (s : State) : answerOf .aaa s = entryAaa Config.aaxAdjust s.a s.inputFlags := by
  simp only [answerOf, opA_word]

/-- AAS works on the whole port. -/
theorem answerOf_aas (s : State) : answerOf .aas s = entryAas Config.aaxAdjust s.a s.inputFlags := by
  simp only [answerOf, opA_word]

/-! ### DAA and DAS -/

/-- The condition on the low digit sees the low nibble alone, so the low byte meets it when the word does. -/
theorem lowFires_mod_byte (v : Nat) (f : Word) : lowFires (v % 256) f = lowFires v f := by
  rw [lowFires, lowFires, Nat.mod_mod_of_dvd v (by decide)]

/-- The flags of DAA and DAS as a status word, with OF as given (R124, R125). -/
theorem toWord_decimalStatus_OF (x t : Byte) (f : Word) (o : Bool) :
    Flags.toWord { decimalStatus x (Flags.ofWord f) t with OF := o } = statusWord (cf := highFires x.toNat f)
      (pf := evenParity t) (af := lowFires x.toNat f) (zf := decide (t.toNat = 0)) (sf := t[7]) (of := o) := by
  rw [statusWord_eq_toWord, evenParity_eq_flagPF, ← flagZF_eq, ← lowDigitFires_eq, ← highDigitFires_eq]
  simp [decimalStatus, derive, flagSF, BitVec.msb_eq_getLsbD_last]

/-- `P_DAA_OF` gives DAA its OF (R123). -/
theorem entryDaa_status (d : Byte → Flags → Bool) (x : Byte) (F : Flags) :
    (entryDaa d x F).status = { decimalStatus x F (decimalUp x F) with OF := d x F.status } :=
  Flags.eq_of_mem _ _ fun f => by cases f <;> simp [entryDaa, decimalStatus, derive, Flags.mem]

/-- DAS leaves OF clear (R125). -/
theorem entryDas_status (x : Byte) (F : Flags) :
    (entryDas x F).status = { decimalStatus x F (decimalDown x F) with OF := false } := rfl

/-- DAA answers the byte its two steps give, with AF and CF as they fired, and OF from `P_DAA_OF` (R123, R124). -/
theorem complete_entryDaa (d : Byte → Flags → Bool) (s : State) (x : Byte) :
    s.complete (entryDaa d x s.inputFlags) = .next (answered s (zext16 (decimalUp x s.inputFlags)) true (statusWord
      (cf := highFires x.toNat s.flagsIn) (pf := evenParity (decimalUp x s.inputFlags))
      (af := lowFires x.toNat s.flagsIn) (zf := decide ((decimalUp x s.inputFlags).toNat = 0))
      (sf := (decimalUp x s.inputFlags)[7]) (of := d x (Flags.ofWord (s.flagsIn &&& statusMask))))) := by
  rw [← toWord_decimalStatus_OF, ← Flags.status_ofWord, ← State.inputFlags, ← entryDaa_status]
  rfl

/-- DAS answers the byte its two steps give, with AF and CF as they fired, and OF clear (R125). -/
theorem complete_entryDas (s : State) (x : Byte) :
    s.complete (entryDas x s.inputFlags) = .next (answered s (zext16 (decimalDown x s.inputFlags)) true (statusWord
      (cf := highFires x.toNat s.flagsIn) (pf := evenParity (decimalDown x s.inputFlags))
      (af := lowFires x.toNat s.flagsIn) (zf := decide ((decimalDown x s.inputFlags).toNat = 0))
      (sf := (decimalDown x s.inputFlags)[7]) (of := false))) := by
  rw [← toWord_decimalStatus_OF, ← State.inputFlags, ← entryDas_status]
  rfl

/-- The two steps of DAA on the port `a`, on numbers (R124). -/
theorem decimalUp_opA_toNat (s : State) :
    (decimalUp (s.opA 8) s.inputFlags).toNat = (s.a.toNat % 256 + (if lowFires s.a.toNat s.flagsIn then 0x06 else 0) +
      (if highFires (s.a.toNat % 256) s.flagsIn then 0x60 else 0)) % 256 := by
  rw [State.inputFlags, decimalUp_toNat, opA_byte_toNat, lowFires_mod_byte]

/-- The two steps of DAS on the port `a`, on numbers (R125). -/
theorem decimalDown_opA_toNat (s : State) :
    (decimalDown (s.opA 8) s.inputFlags).toNat =
      (s.a.toNat % 256 + 512 - (if lowFires s.a.toNat s.flagsIn then 0x06 else 0) -
        (if highFires (s.a.toNat % 256) s.flagsIn then 0x60 else 0)) % 256 := by
  rw [State.inputFlags, decimalDown_toNat, opA_byte_toNat, lowFires_mod_byte]

end Sys2Proof.Machine

namespace Sys2Proof.Proofs

open Sys2Proof.Machine

/-- Settles O42: what AAA answers, for whichever adjustment. -/
theorem aaaAnswersAdjusted : Obligations.AaaAnswersAdjusted := by
  refine ⟨decode_encode .aaa, decode_encodeAlias .aaa, fun s => ?_⟩
  rw [exec_eq_complete, answerOf_aaa, complete_entryAaa]

/-- Settles O43: what AAS answers, for whichever adjustment. -/
theorem aasAnswersAdjusted : Obligations.AasAnswersAdjusted := by
  refine ⟨decode_encode .aas, decode_encodeAlias .aas, fun s => ?_⟩
  rw [exec_eq_complete, answerOf_aas, complete_entryAas]

/-- Settles O44: the byte `t` is the one the two steps of DAA give. -/
theorem daaAnswersAdjusted : Obligations.DaaAnswersAdjusted := by
  refine ⟨decode_encode .daa, decode_encodeAlias .daa, fun s t ht => ?_⟩
  obtain rfl : decimalUp (s.opA 8) s.inputFlags = t := BitVec.eq_of_toNat_eq ((decimalUp_opA_toNat s).trans ht.symm)
  rw [exec_eq_complete, answerOf, complete_entryDaa, opA_byte_toNat, lowFires_mod_byte]
  rfl

/-- Settles O45: the byte `t` is the one the two steps of DAS give. -/
theorem dasAnswersAdjusted : Obligations.DasAnswersAdjusted := by
  refine ⟨decode_encode .das, decode_encodeAlias .das, fun s t ht => ?_⟩
  obtain rfl : decimalDown (s.opA 8) s.inputFlags = t :=
    BitVec.eq_of_toNat_eq ((decimalDown_opA_toNat s).trans ht.symm)
  rw [exec_eq_complete, answerOf, complete_entryDas, opA_byte_toNat, lowFires_mod_byte]
  rfl

end Sys2Proof.Proofs
end

section
/-! The two values of `P_AAX_ADJUST` against each other (spec/43_bcd_adjust.md R120): they part where the adjustment of
the low byte carries or borrows. -/

namespace Sys2Proof.Machine

theorem joinBytes_hi8_lo8 (v : Word) : joinBytes (hi8 v) (lo8 v) = v := by
  apply BitVec.eq_of_toNat_eq
  rw [joinBytes_toNat, hi8_toNat, lo8_toNat]
  omega

theorem joinBytes_and_joinBytes (hi lo hi' lo' : Byte) :
    joinBytes hi lo &&& joinBytes hi' lo' = joinBytes (hi &&& hi') (lo &&& lo') := BitVec.and_append

/-- The mask keeps the high byte and the low digit (R121, R122). -/
theorem and_asciiMask_toNat (v : Word) : (v &&& asciiMask).toNat = v.toNat / 256 * 256 + v.toNat % 16 := by
  have hdigit : (lo8 v &&& 0x0F#8).toNat = v.toNat % 16 := by
    rw [BitVec.toNat_and, lo8_toNat]
    exact (Nat.and_two_pow_sub_one_eq_mod _ 4).trans (Nat.mod_mod_of_dvd _ (by decide))
  have hbytes : v &&& asciiMask = joinBytes (hi8 v) (lo8 v &&& 0x0F#8) := by
    calc v &&& asciiMask = joinBytes (hi8 v) (lo8 v) &&& joinBytes (BitVec.allOnes 8) 0x0F#8 := by
          rw [joinBytes_hi8_lo8]
          rfl
      _ = joinBytes (hi8 v) (lo8 v &&& 0x0F#8) := by rw [joinBytes_and_joinBytes, BitVec.and_allOnes]
  rw [hbytes, joinBytes_toNat, hi8_toNat, hdigit]

/-- The mask does not touch a unit of the high byte. -/
theorem add_and_asciiMask (v : Word) : (v + 0x0100#16) &&& asciiMask = (v &&& asciiMask) + 0x0100#16 := by
  apply BitVec.eq_of_toNat_eq
  simp only [and_asciiMask_toNat, BitVec.toNat_add, BitVec.toNat_ofNat]
  omega

/-- Nor does it when the unit is taken away. -/
theorem sub_and_asciiMask (v : Word) : (v - 0x0100#16) &&& asciiMask = (v &&& asciiMask) - 0x0100#16 := by
  rw [eq_sub_iff_add_eq, ← add_and_asciiMask, sub_add_cancel]

/-- Up, the two adjustments differ where adding 6 carries out of the low byte. -/
theorem adjustUp_word_eq (acc : Word) :
    adjustUp .word acc = if 0xFA ≤ acc.toNat % 256 then adjustUp .split acc + 0x0100#16 else adjustUp .split acc := by
  split
  all_goals
    apply BitVec.eq_of_toNat_eq
    simp only [BitVec.toNat_add, adjustUp_toNat, Safety.adjustedUp, BitVec.toNat_ofNat]
    omega

/-- Down, the two adjustments differ where taking 6 away borrows from the high byte. -/
theorem adjustDown_word_eq (acc : Word) :
    adjustDown .word acc =
      if acc.toNat % 256 < 6 then adjustDown .split acc - 0x0100#16 else adjustDown .split acc := by
  split
  all_goals
    apply BitVec.eq_of_toNat_eq
    simp only [BitVec.toNat_sub, adjustDown_toNat, Safety.adjustedDown, BitVec.toNat_ofNat]
    omega

/-- The condition on the low digit, on numbers, for any input Flags. -/
theorem lowDigitFires_eq_decide {n : Nat} (v : BitVec n) (F : Flags) :
    lowDigitFires v F = (decide (9 < v.toNat % 16) || F.AF) := by
  simp [lowDigitFires, BitVec.ult_eq_decide]

/-- A low byte of 0xFA or more has a low digit above 9, so that AAA adjusts it. -/
theorem entryAaa_word_value (acc : Word) (F : Flags) :
    (entryAaa .word acc F).value = if 0xFA ≤ acc.toNat % 256 then (entryAaa .split acc F).value + 0x0100#16
      else (entryAaa .split acc F).value := by
  by_cases hcarry : 0xFA ≤ acc.toNat % 256
  · have hdigit : 9 < acc.toNat % 16 := by omega
    simp [entryAaa, lowDigitFires_eq_decide, hdigit, adjustUp_word_eq, hcarry, add_and_asciiMask]
  · simp only [entryAaa, adjustUp_word_eq, hcarry, if_false]

/-- A low byte below 6 has a low digit of 9 or less, so that AAS adjusts it for AF alone. -/
theorem entryAas_word_value (acc : Word) (F : Flags) :
    (entryAas .word acc F).value = if F.AF = true ∧ acc.toNat % 256 < 6
      then (entryAas .split acc F).value - 0x0100#16 else (entryAas .split acc F).value := by
  by_cases hborrow : acc.toNat % 256 < 6
  · have hdigit : ¬ 9 < acc.toNat % 16 := by omega
    cases hAF : F.AF <;>
      simp [entryAas, lowDigitFires_eq_decide, hdigit, hAF, adjustDown_word_eq, hborrow, sub_and_asciiMask]
  · simp only [entryAas, adjustDown_word_eq, hborrow, and_false, if_false]

end Sys2Proof.Machine

namespace Sys2Proof.Proofs

open Sys2Proof.Machine

/-- Settles O46: the flags do not depend on the adjustment, and the values part at a carry or a borrow. -/
theorem aaxAdjustChoicesDiffer : Obligations.AaxAdjustChoicesDiffer := fun acc F =>
  ⟨rfl, rfl, entryAaa_word_value acc F, entryAas_word_value acc F⟩

end Sys2Proof.Proofs
end

section
/-! The digits of a DAA or DAS result when AF and CF are clear on input (spec/43_bcd_adjust.md R124, R125;
spec/95_test_vectors.md L2.15). -/

namespace Sys2Proof.Machine

open Sys2Proof.Safety

/-- A word that is zero under a mask has every bit of the mask clear. -/
theorem getElem_eq_false_of_and_eq_zero {v m : Word} (h : v &&& m = 0#16) {k : Nat} (hk : k < 16) (hm : m[k] = true) :
    v[k] = false :=
  (getElem_eq_of_and_eq (h.trans BitVec.zero_and.symm) hk hm).trans (BitVec.getElem_zero hk)

/-- With AF clear, the low digit alone decides on step 1. -/
theorem lowFires_of_clear {f : Word} (hf : f &&& 0x0011#16 = 0#16) (v : Nat) : lowFires v f = decide (9 < v % 16) := by
  have hAF : f[4] = false := getElem_eq_false_of_and_eq_zero hf (by decide) (by decide)
  rw [lowFires, hAF, Bool.or_false]

/-- With CF clear, the byte alone decides on step 2. -/
theorem highFires_of_clear {f : Word} (hf : f &&& 0x0011#16 = 0#16) (x : Nat) : highFires x f = decide (0x9F < x) := by
  have hCF : f[0] = false := getElem_eq_false_of_and_eq_zero hf (by decide) (by decide)
  rw [highFires, hCF, Bool.or_false]

/-- The result of DAA, on numbers. -/
theorem answerOf_daa_value_toNat (s : State) :
    (answerOf .daa s).value.toNat = (s.a.toNat % 256 + (if lowFires s.a.toNat s.flagsIn then 0x06 else 0) +
      (if highFires (s.a.toNat % 256) s.flagsIn then 0x60 else 0)) % 256 :=
  (zext16_toNat _ (by decide)).trans (decimalUp_opA_toNat s)

/-- The result of DAS, on numbers. -/
theorem answerOf_das_value_toNat (s : State) :
    (answerOf .das s).value.toNat = (s.a.toNat % 256 + 512 - (if lowFires s.a.toNat s.flagsIn then 0x06 else 0) -
      (if highFires (s.a.toNat % 256) s.flagsIn then 0x60 else 0)) % 256 :=
  (zext16_toNat _ (by decide)).trans (decimalDown_opA_toNat s)

/-- CF of DAA is "step 2 fired" (R124). -/
theorem answerOf_daa_CF (s : State) : (answerOf .daa s).status.CF = highFires (s.a.toNat % 256) s.flagsIn := by
  rw [answerOf, entryDaa_status, ← opA_byte_toNat, ← highDigitFires_eq]
  simp [decimalStatus, derive, State.inputFlags]

/-- DAA's result with AF and CF clear: its steps are then decided by the byte. -/
theorem answerOf_daa_value_of_clear {s : State} (hs : s.flagsIn &&& 0x0011#16 = 0#16) :
    (answerOf .daa s).value.toNat = (s.a.toNat % 256 + (if 9 < s.a.toNat % 16 then 0x06 else 0) +
      (if 0x9F < s.a.toNat % 256 then 0x60 else 0)) % 256 := by
  simp only [answerOf_daa_value_toNat, lowFires_of_clear hs, highFires_of_clear hs, decide_eq_true_eq]

/-- DAS's result with AF and CF clear. -/
theorem answerOf_das_value_of_clear {s : State} (hs : s.flagsIn &&& 0x0011#16 = 0#16) :
    (answerOf .das s).value.toNat = (s.a.toNat % 256 + 512 - (if 9 < s.a.toNat % 16 then 0x06 else 0) -
      (if 0x9F < s.a.toNat % 256 then 0x60 else 0)) % 256 := by
  simp only [answerOf_das_value_toNat, lowFires_of_clear hs, highFires_of_clear hs, decide_eq_true_eq]

/-- The two steps of DAA pack every byte but the six whose low digit step 1 carries into a high digit of 9. -/
theorem packed_decimalUp {x : Nat} (hx : ¬(0x9A ≤ x % 256 ∧ x % 256 ≤ 0x9F)) :
    Packed ((x % 256 + (if 9 < x % 16 then 0x06 else 0) + (if 0x9F < x % 256 then 0x60 else 0)) % 256) := by
  unfold Packed
  split <;> split <;> omega

/-- The two steps of DAS pack every byte. -/
theorem packed_decimalDown (x : Nat) :
    Packed ((x % 256 + 512 - (if 9 < x % 16 then 0x06 else 0) - (if 0x9F < x % 256 then 0x60 else 0)) % 256) := by
  unfold Packed
  split <;> split <;> omega

end Sys2Proof.Machine

namespace Sys2Proof.Proofs

open Sys2Proof.Machine Sys2Proof.Safety

/-- Settles O47: from 0x9A to 0x9F step 1 fires and step 2 does not, and every other byte is packed. -/
theorem daaGivesPackedBcd : Obligations.DaaGivesPackedBcd := by
  refine fun s hs => ⟨_, exec_eq_next .daa s, ?_⟩
  rw [outputsOf_result, answerOf_daa_value_of_clear hs, carryIs_outputsOf, answerOf_daa_CF, highFires_of_clear hs]
  split
  case isTrue hx =>
    have hdigit : 9 < s.a.toNat % 16 := by omega
    have hbyte : ¬ 0x9F < s.a.toNat % 256 := by omega
    rw [if_pos hdigit, if_neg hbyte]
    exact ⟨by omega, by simp [hbyte]⟩
  case isFalse hx => exact packed_decimalUp hx

/-- Settles O48: every byte is packed, and from 0x9A to 0x9F step 1 alone fires. -/
theorem dasGivesPackedBcd : Obligations.DasGivesPackedBcd := by
  refine fun s hs => ⟨_, exec_eq_next .das s, ?_⟩
  rw [outputsOf_result, answerOf_das_value_of_clear hs]
  refine ⟨packed_decimalDown _, fun hge hle => ?_⟩
  have hdigit : 9 < s.a.toNat % 16 := by omega
  have hbyte : ¬ 0x9F < s.a.toNat % 256 := by omega
  rw [if_pos hdigit, if_neg hbyte]
  omega

end Sys2Proof.Proofs
end

section
/-! What one step drives, split at the control flags: the result, the two signals and the status flags come from `op`,
`a`, `b` and the status flags of `flags_in`, and TF, IF and DF from themselves (spec/10_state.md R31, R32;
spec/60_exceptions.md R140, R143, R148). -/

namespace Sys2Proof.Machine

/-- A word without unnamed bits is its status flags and its control flags (R27). -/
theorem eq_status_or_control {w : Word} (h : w &&& ~~~namedMask = 0#16) :
    w = (w &&& statusMask) ||| (w &&& controlMask) := by
  have hmasks : statusMask ||| controlMask ||| ~~~namedMask = BitVec.allOnes 16 := by decide
  calc w = w &&& (statusMask ||| controlMask ||| ~~~namedMask) := by rw [hmasks, BitVec.and_allOnes]
    _ = (w &&& statusMask) ||| (w &&& controlMask) := by
      rw [BitVec.and_or_distrib_left, BitVec.and_or_distrib_left, h, BitVec.or_zero]

/-- `flags_out` is the status flags of the evaluation and the control flags of `flags_in` (R28, R32). -/
theorem stepOutputs_flagsOut (s : State) :
    (stepOutputs s).flagsOut = ((stepOutputs s).flagsOut &&& statusMask) ||| (s.flagsIn &&& controlMask) :=
  (eq_status_or_control (stepOutputs_flagsOut_and_not_namedMask s)).trans
    (by rw [stepOutputs_flagsOut_and_controlMask])

/-- All but the control flags of `flags_out` is a function of `op`, `a`, `b` and the status flags of `flags_in`
(R143, R148). -/
theorem stepOutputs_congr_status {s s' : State} (hop : s.op = s'.op) (ha : s.a = s'.a) (hb : s.b = s'.b)
    (hf : s.flagsIn &&& statusMask = s'.flagsIn &&& statusMask) :
    (stepOutputs s).result = (stepOutputs s').result ∧ (stepOutputs s).resWe = (stepOutputs s').resWe ∧
      (stepOutputs s).opErr = (stepOutputs s').opErr ∧
      (stepOutputs s).flagsOut &&& statusMask = (stepOutputs s').flagsOut &&& statusMask := by
  cases h : decode s.op with
  | instr i =>
    have hcontrol : controlMask &&& statusMask = 0#16 := by decide
    rw [stepOutputs_of_instr h, stepOutputs_of_instr (hop ▸ h), answerOf_congr_status i ha hb hf]
    simp only [outputsOf, flagsOutWord_and_of_disjoint _ _ hcontrol, and_self]
  | reserved op =>
    have hnamed : namedMask &&& statusMask = statusMask := by decide
    rw [stepOutputs_of_reserved h, stepOutputs_of_reserved (hop ▸ h)]
    simp only [reservedOutputs, BitVec.and_assoc, hnamed, hf, and_self]

end Sys2Proof.Machine

namespace Sys2Proof.Proofs

open Sys2Proof.Machine

/-- Settles O10: each arm of the dispatch, and the output of a reserved word, completes by driving the outputs. -/
theorem everyEvaluationCompletes : Obligations.EveryEvaluationCompletes :=
  ⟨fun i s => ⟨outputsOf s.flagsIn (answerOf i s), exec_eq_next i s⟩, fun s => ⟨stepOutputs s, step_eq_drive s⟩⟩

/-- Settles O54: both evaluations drive the same result, signals and status flags, and each its own control flags. -/
theorem controlFlagsHaveNoEffect : Obligations.ControlFlagsHaveNoEffect := by
  intro s f hf
  obtain ⟨hresult, hresWe, hopErr, hstatus⟩ :=
    stepOutputs_congr_status (s := { s with flagsIn := f }) (s' := s) rfl rfl rfl hf
  refine ⟨(stepOutputs s).result, (stepOutputs s).flagsOut &&& statusMask, (stepOutputs s).resWe,
    (stepOutputs s).opErr, ?_, ?_, ?_⟩
  · rw [BitVec.and_assoc, statusMask, BitVec.and_not_self]
    exact BitVec.and_zero
  · exact stepOutputs_flagsOut s ▸ step_eq_drive s
  · rw [← hresult, ← hresWe, ← hopErr, ← hstatus]
    exact stepOutputs_flagsOut { s with flagsIn := f } ▸ step_eq_drive { s with flagsIn := f }

end Sys2Proof.Proofs
end

section
/-! The state before the first evaluation (spec/70_reset_and_hazards.md R160, R161; spec/10_state.md R39, R40). -/

namespace Sys2Proof.Proofs

open Sys2Proof.Machine

/-- Settles O13: the fields of the state at reset, as it is defined. -/
theorem resetHasNoOutput : Obligations.ResetHasNoOutput := rfl

/-- Settles O14: no output is shown at reset, so there is none to be illegal. -/
theorem resetPortsLegal : Obligations.ResetPortsLegal := by
  intro o ho
  rw [State.reset_out] at ho
  contradiction

end Sys2Proof.Proofs
end

section
/-! What a BCD adjustment sees of the evaluation before it (spec/70_reset_and_hazards.md R165, R166): when the operands
have decimal digits, its conditions on the result and the flags of an addition or subtraction say whether there was a
decimal carry or borrow, whichever way the carry-in was folded (spec/41_binary_arith.md R100). -/

namespace Sys2Proof.Machine

open Sys2Proof.Safety

/-- The low condition on `flags_out`, with AF as known. -/
theorem lowFires_iff_of_auxIs {o : Outputs} {p : Prop} (h : AuxIs o p) (v : Nat) :
    lowFires v o.flagsOut = true ↔ 9 < v % 16 ∨ p := by
  rw [lowFires, Bool.or_eq_true, decide_eq_true_eq, or_congr_right h]

/-- The high condition on `flags_out`, with CF as known. -/
theorem highFires_iff_of_carryIs {o : Outputs} {p : Prop} (h : CarryIs o p) (v : Nat) :
    highFires v o.flagsOut = true ↔ 0x9F < v ∨ p := by
  rw [highFires, Bool.or_eq_true, decide_eq_true_eq, or_congr_right h]

/-! ### After an addition -/

/-- After adding two bytes with decimal low digits, the low condition is the decimal carry. -/
theorem lowFires_iff_of_nibbleCarries {a b : Byte} {c : Bool} {o : Outputs} (haux : AuxIs o (NibbleCarries a b c))
    (ha : a.toNat % 16 ≤ 9) (hb : b.toNat % 16 ≤ 9) :
    lowFires ((a.toNat + b.toNat + c.toNat) % 256) o.flagsOut = true ↔
      10 ≤ a.toNat % 16 + b.toNat % 16 + c.toNat := by
  have hc := c.toNat_le
  rw [lowFires_iff_of_auxIs haux, NibbleCarries]
  omega

/-- After adding two bytes, the high condition is that their sum, unwrapped, is above 0x9F. -/
theorem highFires_iff_of_carriesOut {a b : Byte} {c : Bool} {o : Outputs} (hcarry : CarryIs o (CarriesOut a b c)) :
    highFires ((a.toNat + b.toNat + c.toNat) % 256) o.flagsOut = true ↔ 0x9F < a.toNat + b.toNat + c.toNat := by
  rw [highFires_iff_of_carryIs hcarry, CarriesOut]
  omega

/-- CF and AF of ADC8 are exact for either fold when the low nibble of `b` is not 0xF (R100). -/
theorem exact_of_sumFlagsUnderFold {p : CarryInFold} {a b : Byte} {c : Bool} {o : Outputs}
    (h : SumFlagsUnderFold p a b c o) (hb : b.toNat % 16 ≠ 15) :
    CarryIs o (CarriesOut a b c) ∧ AuxIs o (NibbleCarries a b c) := by
  have hmax : b.toNat ≠ 2 ^ 8 - 1 := by omega
  cases p with
  | intoResult =>
    obtain ⟨hcarry, haux, -⟩ := h
    exact ⟨hcarry.mpr fun hc => hmax hc.2, haux⟩
  | intoOp2 =>
    obtain ⟨hcarry, haux, -⟩ := h
    exact ⟨hcarry.mpr fun hc => hmax hc.2, haux.mpr fun hc => hb hc.2⟩

/-! ### After a subtraction -/

/-- After subtracting two bytes with decimal low digits, the low condition is the decimal borrow. A borrow-in from equal
digits, which AF may miss, leaves 0xF. -/
theorem lowFires_iff_of_nibbleBorrows {a b : Byte} {c : Bool} {o : Outputs}
    (haux : ¬(c = true ∧ b.toNat % 16 = a.toNat % 16) → AuxIs o (NibbleBorrows a b c))
    (ha : a.toNat % 16 ≤ 9) (hb : b.toNat % 16 ≤ 9) :
    lowFires ((a.toNat + 512 - b.toNat - c.toNat) % 256) o.flagsOut = true ↔
      a.toNat % 16 < b.toNat % 16 + c.toNat := by
  by_cases hmissed : c = true ∧ b.toNat % 16 = a.toNat % 16
  · obtain ⟨rfl, hdigits⟩ := hmissed
    have hF : 9 < (a.toNat + 512 - b.toNat - true.toNat) % 256 % 16 := by rw [Bool.toNat_true]; omega
    rw [lowFires, decide_eq_true hF, Bool.true_or, hdigits]
    simp
  · have hc := c.toNat_le
    rw [lowFires_iff_of_auxIs (haux hmissed), NibbleBorrows]
    omega

/-- After subtracting from a byte of at most 0x9F, the high condition is the borrow. A borrow-in from equal bytes, which
CF may miss, leaves 0xFF. -/
theorem highFires_iff_of_borrowsOut {a b : Byte} {c : Bool} {o : Outputs}
    (hcarry : ¬(c = true ∧ b = a) → CarryIs o (BorrowsOut a b c)) (ha : a.toNat ≤ 0x9F) :
    highFires ((a.toNat + 512 - b.toNat - c.toNat) % 256) o.flagsOut = true ↔ a.toNat < b.toNat + c.toNat := by
  by_cases hmissed : c = true ∧ b = a
  · obtain ⟨rfl, rfl⟩ := hmissed
    simp [highFires]
  · have hb := b.isLt
    have hc := c.toNat_le
    rw [highFires_iff_of_carryIs (hcarry hmissed), BorrowsOut]
    omega

/-- CF and AF of SBB8 are exact for either fold when the low nibble of `b` is not 0xF, but for a borrow-in from equal
operands and equal nibbles (R100). -/
theorem exact_of_differenceFlagsUnderFold {p : CarryInFold} {a b : Byte} {c : Bool} {o : Outputs}
    (h : DifferenceFlagsUnderFold p a b c o) (hb : b.toNat % 16 ≠ 15) :
    (¬(c = true ∧ b = a) → CarryIs o (BorrowsOut a b c)) ∧
      (¬(c = true ∧ b.toNat % 16 = a.toNat % 16) → AuxIs o (NibbleBorrows a b c)) := by
  have hmax : b.toNat ≠ 2 ^ 8 - 1 := by omega
  cases p with
  | intoResult =>
    obtain ⟨hcarry, haux, -⟩ := h
    exact ⟨hcarry.mpr, haux.mpr⟩
  | intoOp2 =>
    obtain ⟨hcarry, haux, -⟩ := h
    exact ⟨fun _ => hcarry.mpr fun hc => hmax hc.2, fun _ => haux.mpr fun hc => hb hc.2⟩

end Sys2Proof.Machine
end

section
/-! Packed decimal arithmetic with a carry-in by ADC8 and DAA, and with a borrow-in by SBB8 and DAS
(spec/70_reset_and_hazards.md R165, R166; spec/43_bcd_adjust.md R124, R125). -/

namespace Sys2Proof.Machine

open Sys2Proof.Safety

/-! ### The first evaluation -/

/-- The operand of an 8-bit operation is the low byte of the port. -/
theorem toNat_setWidth_byte (v : Word) : (v.setWidth 8).toNat = v.toNat % 256 := BitVec.toNat_setWidth 8 v

/-- A packed byte on a port is the operand of an 8-bit operation. -/
theorem toNat_setWidth_of_packed {v : Word} (h : Packed v.toNat) : (v.setWidth 8).toNat = v.toNat := by
  obtain ⟨-, hhigh⟩ := h
  rw [toNat_setWidth_byte]
  omega

/-- The value ADC8 answers, on numbers. -/
theorem entryAdc_byte_value_toNat (p : CarryInFold) (a b : Byte) (F : Flags) :
    (entryAdc p a b F).value.toNat = (a.toNat + b.toNat + F.CF.toNat) % 256 := by
  rw [entryAdc, zext16_toNat _ (by decide), fold_add_toNat p a b F.CF (by decide)]
  rfl

/-- The value SBB8 answers, on numbers. -/
theorem entrySbb_byte_value_toNat (p : CarryInFold) (a b : Byte) (F : Flags) :
    (entrySbb p a b F).value.toNat = (a.toNat + 512 - b.toNat - F.CF.toNat) % 256 := by
  rw [entrySbb, zext16_toNat _ (by decide), fold_sub_toNat (by decide) p a b F.CF]
  rfl

/-- ADC8 of packed bytes: the wrapped sum, and what DAA's two conditions say of it, whichever the fold. -/
theorem adc8_evaluates_of_packed (s : State) {x y : Word} (f : Word) (hx : Packed x.toNat) (hy : Packed y.toNat) :
    ∃ o, Evaluates s 0x01#5 x y f o ∧ o.result.toNat = (x.toNat + y.toNat + f[0].toNat) % 256 ∧
      (lowFires o.result.toNat o.flagsOut = true ↔ 10 ≤ x.toNat % 16 + y.toNat % 16 + f[0].toNat) ∧
      (highFires o.result.toNat o.flagsOut = true ↔ 0x9F < x.toNat + y.toNat + f[0].toNat) := by
  have hxbyte := toNat_setWidth_of_packed hx
  have hybyte := toNat_setWidth_of_packed hy
  obtain ⟨hxlow, -⟩ := hx
  obtain ⟨hylow, -⟩ := hy
  have htable := sumFlagsUnderFold_entryAdc (by decide) Config.carryInFold f (x.setWidth 8) (y.setWidth 8)
    (Flags.ofWord f)
  obtain ⟨hcarry, haux⟩ := exact_of_sumFlagsUnderFold htable (by omega)
  have hvalue := entryAdc_byte_value_toNat Config.carryInFold (x.setWidth 8) (y.setWidth 8) (Flags.ofWord f)
  have hlow := lowFires_iff_of_nibbleCarries haux (by omega) (by omega)
  have hhigh := highFires_iff_of_carriesOut hcarry
  rw [← hvalue] at hlow hhigh
  rw [hxbyte, hybyte] at hvalue hlow hhigh
  exact ⟨_, evaluates_of_decode (decode_encode .adc8) s x y f, hvalue, hlow, hhigh⟩

/-- SBB8 of packed bytes: the wrapped difference, and what DAS's two conditions say of it, whichever the fold. -/
theorem sbb8_evaluates_of_packed (s : State) {x y : Word} (f : Word) (hx : Packed x.toNat) (hy : Packed y.toNat) :
    ∃ o, Evaluates s 0x03#5 x y f o ∧ o.result.toNat = (x.toNat + 512 - y.toNat - f[0].toNat) % 256 ∧
      (lowFires o.result.toNat o.flagsOut = true ↔ x.toNat % 16 < y.toNat % 16 + f[0].toNat) ∧
      (highFires o.result.toNat o.flagsOut = true ↔ x.toNat < y.toNat + f[0].toNat) := by
  have hxbyte := toNat_setWidth_of_packed hx
  have hybyte := toNat_setWidth_of_packed hy
  obtain ⟨hxlow, hxhigh⟩ := hx
  obtain ⟨hylow, hyhigh⟩ := hy
  have hc := (Flags.ofWord f).CF.toNat_le
  have htable := differenceFlagsUnderFold_entrySbb (by decide) Config.carryInFold f (x.setWidth 8) (y.setWidth 8)
    (Flags.ofWord f)
  obtain ⟨hcarry, haux⟩ := exact_of_differenceFlagsUnderFold htable (by omega)
  have hvalue := entrySbb_byte_value_toNat Config.carryInFold (x.setWidth 8) (y.setWidth 8) (Flags.ofWord f)
  have hlow := lowFires_iff_of_nibbleBorrows haux (by omega) (by omega)
  have hhigh := highFires_iff_of_borrowsOut hcarry (by omega)
  rw [← hvalue] at hlow hhigh
  rw [hxbyte, hybyte] at hvalue hlow hhigh
  exact ⟨_, evaluates_of_decode (decode_encode .sbb8) s x y f, hvalue, hlow, hhigh⟩

/-! ### The adjustment -/

/-- CF of DAS is "step 2 fired" (R125). -/
theorem answerOf_das_CF (s : State) : (answerOf .das s).status.CF = highFires (s.a.toNat % 256) s.flagsIn := by
  rw [answerOf, entryDas_status, ← opA_byte_toNat, ← highDigitFires_eq]
  simp [decimalStatus, derive, State.inputFlags]

/-- DAA of a byte, with its two conditions as known. -/
theorem daa_evaluates_of_fires (s : State) {v g : Word} {low high : Prop} [Decidable low] [Decidable high]
    (hv : v.toNat < 256) (hlow : lowFires v.toNat g = true ↔ low) (hhigh : highFires v.toNat g = true ↔ high) :
    ∃ o, Evaluates s 0x0A#5 v 0#16 g o ∧
      o.result.toNat = (v.toNat + (if low then 0x06 else 0) + (if high then 0x60 else 0)) % 256 ∧ CarryIs o high := by
  refine ⟨_, evaluates_of_decode (decode_encode .daa) s v 0#16 g, ?_⟩
  simp only [outputsOf_result, carryIs_outputsOf, answerOf_daa_value_toNat, answerOf_daa_CF, State.present_a,
    State.present_flagsIn, Nat.mod_eq_of_lt hv, hlow, hhigh, and_self]

/-- DAS of a byte, with its two conditions as known. -/
theorem das_evaluates_of_fires (s : State) {v g : Word} {low high : Prop} [Decidable low] [Decidable high]
    (hv : v.toNat < 256) (hlow : lowFires v.toNat g = true ↔ low) (hhigh : highFires v.toNat g = true ↔ high) :
    ∃ o, Evaluates s 0x0B#5 v 0#16 g o ∧
      o.result.toNat = (v.toNat + 512 - (if low then 0x06 else 0) - (if high then 0x60 else 0)) % 256 ∧
      CarryIs o high := by
  refine ⟨_, evaluates_of_decode (decode_encode .das) s v 0#16 g, ?_⟩
  simp only [outputsOf_result, carryIs_outputsOf, answerOf_das_value_toNat, answerOf_das_CF, State.present_a,
    State.present_flagsIn, Nat.mod_eq_of_lt hv, hlow, hhigh, and_self]

/-! ### Decimal columns -/

/-- A packed byte is its two decimal digits. -/
theorem exists_digits_of_packed {v : Nat} (h : Packed v) :
    ∃ hi ≤ 9, ∃ lo ≤ 9, v = hi * 16 + lo ∧ unpack v = hi * 10 + lo := by
  obtain ⟨hlow, hhigh⟩ := h
  exact ⟨v / 16, hhigh, v % 16, hlow, by omega, rfl⟩

/-- Two decimal digits make a packed byte. -/
theorem packed_of_digits {v hi lo : Nat} (hhi : hi ≤ 9) (hlo : lo ≤ 9) (hv : v = hi * 16 + lo) :
    Packed v ∧ unpack v = hi * 10 + lo := by
  unfold Packed unpack
  omega

/-- One decimal column of an addition: a digit and a carry. -/
theorem exists_digit_sum {u v c : Nat} (hu : u ≤ 9) (hv : v ≤ 9) (hc : c ≤ 1) :
    ∃ d ≤ 9, ∃ carry ≤ 1, u + v + c = 10 * carry + d :=
  ⟨(u + v + c) % 10, by omega, (u + v + c) / 10, by omega, by omega⟩

/-- One decimal column of a subtraction: a digit and a borrow. -/
theorem exists_digit_difference {u v c : Nat} (hu : u ≤ 9) (hv : v ≤ 9) (hc : c ≤ 1) :
    ∃ d ≤ 9, ∃ borrow ≤ 1, u + 10 * borrow = v + c + d :=
  ⟨(u + 10 - v - c) % 10, by omega, 1 - (u + 10 - v - c) / 10, by omega, by omega⟩

/-- Two packed bytes and a carry, added in binary and corrected by 6 for a low decimal carry and by 0x60 for a sum above
0x9F. A low carry into a high digit of 9, which leaves the sum in 0x9A..0x9F, is the one case that this misses. -/
theorem unpack_corrected_sum {x y c r : Nat} (hx : Packed x) (hy : Packed y) (hc : c ≤ 1)
    (hmiss : ¬(0x9A ≤ x + y + c ∧ x + y + c ≤ 0x9F))
    (hr : r = ((x + y + c) % 256 + (if 10 ≤ x % 16 + y % 16 + c then 0x06 else 0) +
      (if 0x9F < x + y + c then 0x60 else 0)) % 256) :
    Packed r ∧ unpack r = (unpack x + unpack y + c) % 100 ∧
      (0x9F < x + y + c ↔ 100 ≤ unpack x + unpack y + c) := by
  obtain ⟨xh, hxh, xl, hxl, rfl, hxu⟩ := exists_digits_of_packed hx
  obtain ⟨yh, hyh, yl, hyl, rfl, hyu⟩ := exists_digits_of_packed hy
  obtain ⟨lo, hlo, low, hlow, hlosum⟩ := exists_digit_sum hxl hyl hc
  obtain ⟨hi, hhi, high, hhigh, hhisum⟩ := exists_digit_sum hxh hyh hlow
  have hlowCarry : 10 ≤ (xh * 16 + xl) % 16 + (yh * 16 + yl) % 16 + c ↔ low = 1 := by omega
  have hhighCarry : 0x9F < xh * 16 + xl + (yh * 16 + yl) + c ↔ high = 1 := by omega
  have hdigits : r = hi * 16 + lo := by
    simp only [hlowCarry, hhighCarry] at hr
    split_ifs at hr <;> omega
  obtain ⟨hpacked, hunpack⟩ := packed_of_digits hhi hlo hdigits
  rw [hxu, hyu, hunpack]
  exact ⟨hpacked, by omega, by omega⟩

/-- Two packed bytes and a borrow, subtracted in binary and corrected by 6 for a low decimal borrow and by 0x60 for a
borrow of the whole. -/
theorem unpack_corrected_difference {x y c r : Nat} (hx : Packed x) (hy : Packed y) (hc : c ≤ 1)
    (hr : r = ((x + 512 - y - c) % 256 + 512 - (if x % 16 < y % 16 + c then 0x06 else 0) -
      (if x < y + c then 0x60 else 0)) % 256) :
    Packed r ∧ unpack r = (unpack x + 200 - unpack y - c) % 100 ∧ (x < y + c ↔ unpack x < unpack y + c) := by
  obtain ⟨xh, hxh, xl, hxl, rfl, hxu⟩ := exists_digits_of_packed hx
  obtain ⟨yh, hyh, yl, hyl, rfl, hyu⟩ := exists_digits_of_packed hy
  obtain ⟨lo, hlo, low, hlow, hlodiff⟩ := exists_digit_difference hxl hyl hc
  obtain ⟨hi, hhi, high, hhigh, hhidiff⟩ := exists_digit_difference hxh hyh hlow
  have hlowBorrow : (xh * 16 + xl) % 16 < (yh * 16 + yl) % 16 + c ↔ low = 1 := by omega
  have hhighBorrow : xh * 16 + xl < yh * 16 + yl + c ↔ high = 1 := by omega
  have hdigits : r = hi * 16 + lo := by
    simp only [hlowBorrow, hhighBorrow] at hr
    split_ifs at hr <;> omega
  obtain ⟨hpacked, hunpack⟩ := packed_of_digits hhi hlo hdigits
  rw [hxu, hyu, hunpack]
  exact ⟨hpacked, by omega, by omega⟩

end Sys2Proof.Machine

namespace Sys2Proof.Proofs

open Sys2Proof.Machine Sys2Proof.Safety

/-- Settles O49: DAA's conditions are the decimal carries, but for a sum in 0x9A..0x9F, where step 1 alone fires. -/
theorem packedDecimalAddition : Obligations.PackedDecimalAddition := by
  intro s x y f _ _ hx hy
  obtain ⟨o₁, heval₁, hvalue, hlow, hhigh⟩ := adc8_evaluates_of_packed s f hx hy
  obtain ⟨o₂, heval₂, hresult, hcarry⟩ := daa_evaluates_of_fires s (by omega) hlow hhigh
  refine ⟨o₁, o₂, heval₁, heval₂, ?_⟩
  rw [hvalue] at hresult
  split
  case isTrue hmissed =>
    obtain ⟨hxlow, -⟩ := hx
    obtain ⟨hylow, -⟩ := hy
    have hc := f[0].toNat_le
    have hlowCarry : 10 ≤ x.toNat % 16 + y.toNat % 16 + f[0].toNat := by omega
    have hnoHigh : ¬ 0x9F < x.toNat + y.toNat + f[0].toNat := by omega
    rw [if_pos hlowCarry, if_neg hnoHigh] at hresult
    exact ⟨by omega, hcarry.trans (iff_false_intro hnoHigh)⟩
  case isFalse hmissed =>
    obtain ⟨hpacked, hunpack, hdecimal⟩ := unpack_corrected_sum hx hy f[0].toNat_le hmissed hresult
    exact ⟨hpacked, hunpack, hcarry.trans hdecimal⟩

/-- Settles O50: DAS's conditions are the decimal borrows. -/
theorem packedDecimalSubtraction : Obligations.PackedDecimalSubtraction := by
  intro s x y f _ _ hx hy
  obtain ⟨o₁, heval₁, hvalue, hlow, hhigh⟩ := sbb8_evaluates_of_packed s f hx hy
  obtain ⟨o₂, heval₂, hresult, hcarry⟩ := das_evaluates_of_fires s (by omega) hlow hhigh
  rw [hvalue] at hresult
  obtain ⟨hpacked, hunpack, hdecimal⟩ := unpack_corrected_difference hx hy f[0].toNat_le hresult
  exact ⟨o₁, o₂, heval₁, heval₂, hpacked, hunpack, hcarry.trans hdecimal⟩

end Sys2Proof.Proofs
end

section
/-! Decimal arithmetic on single digits, plain or as ASCII characters, by ADD8 and AAA and by SUB8 and AAS
(spec/70_reset_and_hazards.md R165, R166; spec/43_bcd_adjust.md R120-R122). -/

namespace Sys2Proof.Machine

open Sys2Proof.Safety

/-! ### The first evaluation -/

/-- ADD8 of bytes with decimal low digits: the sum, and what AAA's condition says of it. -/
theorem add8_evaluates_of_digits (s : State) {x y : Word} (f : Word) (hx : x.toNat % 16 ≤ 9)
    (hy : y.toNat % 16 ≤ 9) :
    ∃ o, Evaluates s 0x00#5 x y f o ∧ o.result.toNat = (x.toNat + y.toNat) % 256 ∧
      (lowFires o.result.toNat o.flagsOut = true ↔ 10 ≤ x.toNat % 16 + y.toNat % 16) := by
  obtain ⟨-, haux, -⟩ := outputsOf_entryAdd_exact (by decide) f (x.setWidth 8) (y.setWidth 8)
  have hvalue : (entryAdd (x.setWidth 8) (y.setWidth 8)).value.toNat = (_ + _) % 256 :=
    entryAdd_value_toNat (by decide) (x.setWidth 8) (y.setWidth 8)
  have hlow := lowFires_iff_of_nibbleCarries haux (by rw [toNat_setWidth_byte]; omega)
    (by rw [toNat_setWidth_byte]; omega)
  rw [Bool.toNat_false, Nat.add_zero, Nat.add_zero, ← hvalue] at hlow
  rw [toNat_setWidth_byte, toNat_setWidth_byte] at hvalue hlow
  exact ⟨_, evaluates_of_decode (decode_encode .add8) s x y f, hvalue.trans (by omega), hlow.trans (by omega)⟩

/-- SUB8 of bytes with decimal low digits: the difference, and what AAS's condition says of it. -/
theorem sub8_evaluates_of_digits (s : State) {x y : Word} (f : Word) (hx : x.toNat % 16 ≤ 9)
    (hy : y.toNat % 16 ≤ 9) :
    ∃ o, Evaluates s 0x02#5 x y f o ∧ o.result.toNat = (x.toNat % 256 + 256 - y.toNat % 256) % 256 ∧
      (lowFires o.result.toNat o.flagsOut = true ↔ x.toNat % 16 < y.toNat % 16) := by
  obtain ⟨-, haux, -⟩ := outputsOf_entrySub_exact true f (x.setWidth 8) (y.setWidth 8)
  have hvalue := entrySub_value_toNat (by decide) (x.setWidth 8) (y.setWidth 8)
  have hlow := lowFires_iff_of_nibbleBorrows (fun _ => haux) (by rw [toNat_setWidth_byte]; omega)
    (by rw [toNat_setWidth_byte]; omega)
  have hwrap : ((x.setWidth 8).toNat + 512 - (y.setWidth 8).toNat - false.toNat) % 256 =
      (entrySub (x.setWidth 8) (y.setWidth 8)).value.toNat := by
    rw [hvalue, Bool.toNat_false]
    omega
  rw [hwrap] at hlow
  rw [toNat_setWidth_byte, toNat_setWidth_byte] at hvalue hlow
  exact ⟨_, evaluates_of_decode (decode_encode .sub8) s x y f, hvalue, hlow.trans (by rw [Bool.toNat_false]; omega)⟩

/-! ### The adjustment -/

/-- The accumulator of a high byte and the low byte of a word below 256. -/
theorem toNat_append_setWidth_byte (h : Byte) {v : Word} (hv : v.toNat < 256) :
    (h ++ v.setWidth 8).toNat = h.toNat * 256 + v.toNat := by
  have hjoin : (h ++ v.setWidth 8).toNat = h.toNat * 256 + (v.setWidth 8).toNat := joinBytes_toNat h (v.setWidth 8)
  rw [hjoin, toNat_setWidth_byte, Nat.mod_eq_of_lt hv]

/-- The low byte alone decides on AAA and AAS. -/
theorem lowDigitFires_append_setWidth_byte (h : Byte) {v g : Word} {low : Prop} (hv : v.toNat < 256)
    (hlow : lowFires v.toNat g = true ↔ low) :
    lowDigitFires (h ++ v.setWidth 8) (Flags.ofWord g) = true ↔ low := by
  have hbyte : (h ++ v.setWidth 8).toNat % 256 = v.toNat := by rw [toNat_append_setWidth_byte h hv]; omega
  rw [lowDigitFires_eq, ← lowFires_mod_byte, hbyte, hlow]

/-- Where adding 6 does not carry out of the low byte, both adjustments of AAA give one more in the high byte and the
low digit of the low byte plus 6. -/
theorem entryAaa_value_toNat (p : AaxAdjust) {acc : Word} (F : Flags) (hacc : acc.toNat % 256 < 0xFA) :
    (entryAaa p acc F).value.toNat = if lowDigitFires acc F
      then (acc.toNat / 256 + 1) % 256 * 256 + (acc.toNat + 6) % 16
      else acc.toNat / 256 * 256 + acc.toNat % 16 := by
  have hsplit : (entryAaa p acc F).value = (entryAaa .split acc F).value := by
    cases p with
    | split => rfl
    | word => rw [entryAaa_word_value, if_neg (by omega)]
  rw [hsplit, entryAaa, and_asciiMask_toNat, apply_ite BitVec.toNat, adjustUp_toNat, adjustedUp]
  split <;> omega

/-- Where taking 6 away does not borrow from the high byte, both adjustments of AAS give one less in the high byte and
the low digit of the low byte minus 6. -/
theorem entryAas_value_toNat (p : AaxAdjust) {acc : Word} (F : Flags)
    (hacc : lowDigitFires acc F = true → 6 ≤ acc.toNat % 256) :
    (entryAas p acc F).value.toNat = if lowDigitFires acc F
      then (acc.toNat / 256 + 255) % 256 * 256 + (acc.toNat + 10) % 16
      else acc.toNat / 256 * 256 + acc.toNat % 16 := by
  have hAF : F.AF = true → lowDigitFires acc F = true := fun h => by rw [lowDigitFires, h, Bool.or_true]
  have hsplit : (entryAas p acc F).value = (entryAas .split acc F).value := by
    cases p with
    | split => rfl
    | word =>
      rw [entryAas_word_value, if_neg]
      rintro ⟨h, hlt⟩
      exact absurd (hacc (hAF h)) (Nat.not_le.mpr hlt)
  rw [hsplit, entryAas, and_asciiMask_toNat, apply_ite BitVec.toNat, adjustDown_toNat, adjustedDown]
  split <;> omega

/-- AAA on a high byte and a low byte, with its condition as known. -/
theorem aaa_evaluates_of_fires (s : State) (h : Byte) {v g : Word} {low : Prop} [Decidable low] (hv : v.toNat < 0xFA)
    (hlow : lowFires v.toNat g = true ↔ low) :
    ∃ o, Evaluates s 0x18#5 (h ++ v.setWidth 8) 0#16 g o ∧
      o.result.toNat = (if low then (h.toNat + 1) % 256 * 256 + (v.toNat + 6) % 16
        else h.toNat * 256 + v.toNat % 16) ∧
      CarryIs o low ∧ AuxIs o low := by
  have hacc := toNat_append_setWidth_byte h (v := v) (by omega)
  have hfires := lowDigitFires_append_setWidth_byte h (by omega) hlow
  have hvalue := entryAaa_value_toNat Config.aaxAdjust (Flags.ofWord g) (acc := h ++ v.setWidth 8) (by omega)
  refine ⟨_, evaluates_of_decode (decode_encode .aaa) s _ 0#16 g, ?_⟩
  rw [carryIs_outputsOf, auxIs_outputsOf, outputsOf_result, answerOf_aaa]
  refine ⟨hvalue.trans ?_, hfires, hfires⟩
  simp only [hfires, hacc]
  split <;> omega

/-- AAS on a high byte and a low byte, with its condition as known. -/
theorem aas_evaluates_of_fires (s : State) (h : Byte) {v g : Word} {low : Prop} [Decidable low] (hv : v.toNat < 256)
    (hlow : lowFires v.toNat g = true ↔ low) (hborrow : low → 6 ≤ v.toNat) :
    ∃ o, Evaluates s 0x19#5 (h ++ v.setWidth 8) 0#16 g o ∧
      o.result.toNat = (if low then (h.toNat + 255) % 256 * 256 + (v.toNat + 10) % 16
        else h.toNat * 256 + v.toNat % 16) ∧
      CarryIs o low ∧ AuxIs o low := by
  have hacc := toNat_append_setWidth_byte h hv
  have hfires := lowDigitFires_append_setWidth_byte h hv hlow
  have hvalue := entryAas_value_toNat Config.aaxAdjust (Flags.ofWord g) (acc := h ++ v.setWidth 8) fun hfire => by
    have hsix := hborrow (hfires.mp hfire)
    omega
  refine ⟨_, evaluates_of_decode (decode_encode .aas) s _ 0#16 g, ?_⟩
  rw [carryIs_outputsOf, auxIs_outputsOf, outputsOf_result, answerOf_aas]
  refine ⟨hvalue.trans ?_, hfires, hfires⟩
  simp only [hfires, hacc]
  split <;> omega

/-! ### The digits -/

/-- A decimal digit on a port, plain or as an ASCII character. -/
theorem toNat_ofNat_digit {d p : Nat} (hd : d ≤ 9) (hp : p ∈ [0x00, 0x30]) :
    (BitVec.ofNat 16 (p + d)).toNat % 16 = d ∧ (BitVec.ofNat 16 (p + d)).toNat ≤ 0x39 := by
  rw [BitVec.toNat_ofNat]
  rcases List.mem_pair.mp hp with rfl | rfl <;> omega

end Sys2Proof.Machine

namespace Sys2Proof.Proofs

open Sys2Proof.Machine

/-- Settles O51: the sum of two digits or characters is at most 0x72, where both adjustments of R120 agree. -/
theorem unpackedDecimalAddition : Obligations.UnpackedDecimalAddition := by
  intro s h d e p q f hd he hp hq
  obtain ⟨hx, hxmax⟩ := toNat_ofNat_digit hd hp
  obtain ⟨hy, hymax⟩ := toNat_ofNat_digit he hq
  obtain ⟨o₁, heval₁, hvalue, hlow⟩ := add8_evaluates_of_digits s f (hx.trans_le hd) (hy.trans_le he)
  obtain ⟨o₂, heval₂, hresult, hcarry, haux⟩ := aaa_evaluates_of_fires s h (by omega) hlow
  rw [hx, hy] at hresult hcarry haux
  refine ⟨o₁, o₂, heval₁, heval₂, hresult.trans ?_, hcarry, haux⟩
  have hh := h.isLt
  split <;> omega

/-- Settles O52: a difference that AAS adjusts has a low digit of at least 7, where both adjustments of R120 agree. -/
theorem unpackedDecimalSubtraction : Obligations.UnpackedDecimalSubtraction := by
  intro s h d e p q f hd he hp hq
  obtain ⟨hx, hxmax⟩ := toNat_ofNat_digit hd hp
  obtain ⟨hy, hymax⟩ := toNat_ofNat_digit he hq
  obtain ⟨o₁, heval₁, hvalue, hlow⟩ := sub8_evaluates_of_digits s f (hx.trans_le hd) (hy.trans_le he)
  rw [hx, hy] at hlow
  obtain ⟨o₂, heval₂, hresult, hcarry, haux⟩ := aas_evaluates_of_fires s h (by omega) hlow (by omega)
  refine ⟨o₁, o₂, heval₁, heval₂, hresult.trans ?_, hcarry, haux⟩
  have hh := h.isLt
  split <;> omega

end Sys2Proof.Proofs
end
